-- ==== Sys2Proof/Word.lean ====
section
/-! DEFINITION. The bit-vector types of the modular field core (MFC): a byte of `BUF` and a command word. -/

namespace Sys2Proof

/-- One byte of the buffer `BUF` (10_state.md R30). -/
abbrev Byte := BitVec 8

/-- A command word: exactly 32 bits (30_encoding.md R80). -/
abbrev CmdWord := BitVec 32

end Sys2Proof
end

