-- ==== Sys2Proof/Syntax.lean ====
section
/-! DEFINITION. The commands of the MFC: one constructor per row of spec/opcode_table.json. -/

namespace Sys2Proof

/-- The width a command is written for, the field `WSEL` of its word (30_encoding.md R83): the `<W>` of its assembly
spelling (R89). The code `11` is reserved and names no width. -/
inductive Width where
  | w16
  | w32
  | w64
  deriving DecidableEq, Repr

/-- The width in bits (30_encoding.md R83). -/
def Width.bits : Width → Nat
  | .w16 => 16
  | .w32 => 32
  | .w64 => 64

/-- A command. No command has operand fields (30_encoding.md R86); each row but REMR is one word for each width, and
`encEnv` and `decEnv` are the envelope forms (R84). REMR exists as `REMR.64` only (R83). -/
inductive Instr where
  | add (w : Width)
  | sub (w : Width)
  | neg (w : Width)
  | dbl (w : Width)
  | mul (w : Width)
  | sqr (w : Width)
  | redw (w : Width)
  | rednz (w : Width)
  | inv (w : Width)
  | sqrt (w : Width)
  | sqrtr (w : Width)
  | enc (w : Width)
  | encEnv (w : Width)
  | dec (w : Width)
  | decEnv (w : Width)
  | isodd (w : Width)
  | remr
  deriving DecidableEq, Repr

/-- The width a command names. -/
def Instr.width : Instr → Width
  | .add w | .sub w | .neg w | .dbl w | .mul w | .sqr w | .redw w | .rednz w | .inv w | .sqrt w | .sqrtr w
  | .enc w | .encEnv w | .dec w | .decEnv w | .isodd w => w
  | .remr => .w64

end Sys2Proof
end

