-- ==== Sys2Proof/WellFormed.lean ====
section
/-! DEFINITION. When a command is well formed on an instance (30_encoding.md R83, R87). -/

namespace Sys2Proof

/-- A command is well formed on an instance of width `W` when the width it names is `W` (30_encoding.md R83). For
REMR this says `W = 64`, the last line of R87. -/
abbrev WellFormed (W : Nat) (i : Instr) : Prop := i.width.bits = W

end Sys2Proof
end

