-- ==== Sys2Proof/Decode.lean ====
section
/-! DEFINITION. The decoder and the encoder of command words (30_encoding.md R81 to R87), both written from the
field table of R81 and the `OPC` table of R82. -/

namespace Sys2Proof

/-- Why a word is illegal whatever the instance (30_encoding.md R87). The one further reason, a `WSEL` that names
another width than the instance's, is `WellFormed`. All of them raise ILLEGAL_COMMAND. -/
inductive Reject where
  /-- some bit of `[31:11]` is set (R85) -/
  | reserved
  /-- `WSEL` is the reserved code `11` (R83) -/
  | wsel
  /-- `OPC` is not in `0x01..0x0F` (R82) -/
  | opcode
  /-- `ENV = 1` on a command other than ENC and DEC (R84) -/
  | env
  /-- `OPC = 0x0F` with a `WSEL` other than `10` (R83) -/
  | remrWidth
  deriving DecidableEq, Repr

/-- The field `OPC`, bits `[7:0]` (30_encoding.md R81). -/
def opcOf (w : CmdWord) : BitVec 8 := w.extractLsb' 0 8

/-- The field `WSEL`, bits `[9:8]` (30_encoding.md R81). -/
def wselOf (w : CmdWord) : BitVec 2 := w.extractLsb' 8 2

/-- The field `ENV`, bit `[10]` (30_encoding.md R81). -/
def envOf (w : CmdWord) : Bool := w.getLsbD 10

/-- The reserved field, bits `[31:11]` (30_encoding.md R81). -/
def reservedOf (w : CmdWord) : BitVec 21 := w.extractLsb' 11 21

/-- The width a `WSEL` code names (30_encoding.md R83); `11` names none. -/
def widthOfCode (c : BitVec 2) : Option Width :=
  if c = 0b00 then some .w16
  else if c = 0b01 then some .w32
  else if c = 0b10 then some .w64
  else none

/-- `WSEL_OF` (30_encoding.md R83, R87). -/
def wselCode : Width → BitVec 2
  | .w16 => 0b00
  | .w32 => 0b01
  | .w64 => 0b10

/-- A command that exists with `ENV = 0` only (30_encoding.md R84). -/
def plainForm (env : Bool) (i : Instr) : Except Reject Instr :=
  if env then .error .env else .ok i

/-- The command an `OPC` value selects (30_encoding.md R82), given the width and `ENV`. -/
def decodeOpc (wd : Width) (env : Bool) (opc : Nat) : Except Reject Instr :=
  match opc with
  | 0x01 => plainForm env (.add wd)
  | 0x02 => plainForm env (.sub wd)
  | 0x03 => plainForm env (.neg wd)
  | 0x04 => plainForm env (.dbl wd)
  | 0x05 => plainForm env (.mul wd)
  | 0x06 => plainForm env (.sqr wd)
  | 0x07 => plainForm env (.redw wd)
  | 0x08 => plainForm env (.rednz wd)
  | 0x09 => plainForm env (.inv wd)
  | 0x0A => plainForm env (.sqrt wd)
  | 0x0B => plainForm env (.sqrtr wd)
  | 0x0C => .ok (if env then .encEnv wd else .enc wd)
  | 0x0D => .ok (if env then .decEnv wd else .dec wd)
  | 0x0E => plainForm env (.isodd wd)
  | 0x0F => if env then .error .env else if wd = .w64 then .ok .remr else .error .remrWidth
  | _ => .error .opcode

/-- The decoder, total on every 32-bit word (30_encoding.md R87). The width the word names becomes part of the
command; whether it is the instance's is `WellFormed` (DEDUCED, log entry 13: the two together are R87's verdict). -/
def decode (w : CmdWord) : Except Reject Instr :=
  if reservedOf w ≠ 0 then .error .reserved
  else match widthOfCode (wselOf w) with
    | none => .error .wsel
    | some wd => decodeOpc wd (envOf w) (opcOf w).toNat

/-- The classification of 30_encoding.md R87, line for line, on an instance of width `W`: true when the word is
legal. It is written apart from `decode` so that the two can be compared. -/
def legalOn (W : Nat) (w : CmdWord) : Bool :=
  if reservedOf w ≠ 0 then false
  else if ¬((W = 16 ∧ wselOf w = 0b00) ∨ (W = 32 ∧ wselOf w = 0b01) ∨ (W = 64 ∧ wselOf w = 0b10)) then false
  else if ¬(0x01 ≤ (opcOf w).toNat ∧ (opcOf w).toNat ≤ 0x0F) then false
  else if envOf w = true ∧ ¬(opcOf w = 0x0C ∨ opcOf w = 0x0D) then false
  else if opcOf w = 0x0F ∧ W ≠ 64 then false
  else true

/-- The `OPC` value of a command (30_encoding.md R82). -/
def Instr.opc : Instr → BitVec 8
  | .add _ => 0x01
  | .sub _ => 0x02
  | .neg _ => 0x03
  | .dbl _ => 0x04
  | .mul _ => 0x05
  | .sqr _ => 0x06
  | .redw _ => 0x07
  | .rednz _ => 0x08
  | .inv _ => 0x09
  | .sqrt _ => 0x0A
  | .sqrtr _ => 0x0B
  | .enc _ | .encEnv _ => 0x0C
  | .dec _ | .decEnv _ => 0x0D
  | .isodd _ => 0x0E
  | .remr => 0x0F

/-- The `ENV` bit of a command: 1 for the two envelope forms (30_encoding.md R84). -/
def Instr.env : Instr → Bool
  | .encEnv _ | .decEnv _ => true
  | .add _ | .sub _ | .neg _ | .dbl _ | .mul _ | .sqr _ | .redw _ | .rednz _ | .inv _ | .sqrt _ | .sqrtr _
  | .enc _ | .dec _ | .isodd _ | .remr => false

/-- The encoder: the fields of 30_encoding.md R81 from the most significant down. -/
def encode (i : Instr) : CmdWord :=
  (0 : BitVec 21) ++ BitVec.ofBool i.env ++ wselCode i.width ++ i.opc

/-- The command my decoder reads from a row of spec/opcode_table.json whose bits are `w`. Every command is one 32-bit
word (30_encoding.md R80), numbered in the table as R81 numbers it. -/
def decodeTableWord (nbits w : Nat) : Option Instr :=
  let bits := w % 2 ^ nbits
  if 2 ^ 32 ≤ bits then none
  else match decode (BitVec.ofNat 32 bits) with
    | .ok i => some i
    | .error _ => none

end Sys2Proof
end

