-- ==== Sys2Proof/Machine/Arith.lean ====
section
/-! DEFINITION. The arithmetic of the functional units on natural numbers (00_scope.md R8), as the pseudocode of the
40 to 43 files gives it: wrapping add and subtract, the select, the reciprocal divider, the extended Euclidean
algorithm, modular exponentiation, and big-endian byte sequences. -/

namespace Sys2Proof.Machine

/-- `a +_W b` (00_scope.md R8). -/
def wadd (W a b : Nat) : Nat := (a + b) % 2 ^ W

/-- `a -_W b`: the difference modulo `2^W` (00_scope.md R8). -/
def wsub (W a b : Nat) : Nat := (a + (2 ^ W - b % 2 ^ W)) % 2 ^ W

/-- `sel(c, x, y)`: a select between two computed values (40_add_sub_neg.md R100, 90_conflicts.md C1). -/
def sel (c : Bool) (x y : Nat) : Nat := if c then x else y

/-- The adder (40_add_sub_neg.md R101). -/
def addMod (W M a b : Nat) : Nat :=
  let t := wadd W a b
  sel (decide (t ≥ M) || decide (t < a)) (wsub W t M) t

/-- The subtractor (40_add_sub_neg.md R103). -/
def subMod (W M a b : Nat) : Nat :=
  let t := wsub W a b
  sel (decide (a < b)) (wadd W t M) t

/-- The negator (40_add_sub_neg.md R104). -/
def negMod (W M a : Nat) : Nat := sel (decide (a = 0)) 0 (wsub W M a)

/-- Leading zeros of `d` read as a `k`-bit value. -/
def clzBits : Nat → Nat → Nat
  | 0, _ => 0
  | k + 1, d => if 2 ^ k ≤ d then 0 else clzBits k d + 1

/-- The bit length of `n`: the least `k` with `n < 2^k` (10_state.md R25). -/
def bitLength (n : Nat) : Nat := if n = 0 then 0 else Nat.log2 n + 1

/-- `clz_64(d)` (00_scope.md R8). -/
def clz64 (d : Nat) : Nat := clzBits 64 d

/-- The reciprocal of a normalised divisor, without its implicit top bit `2^64` (10_state.md R24, 90_conflicts.md
C5; log entry 14). -/
def reciprocal (d : Nat) : Nat := (2 ^ 128 - 1) / d - 2 ^ 64

/-- `DIV2BY1(u1, u0, d', v)` (41_mul_reduce.md R127, reference steps): quotient and remainder of `u1*2^64 + u0` by
`d'`. -/
def div2by1 (u1 u0 d v : Nat) : Nat × Nat :=
  let t := (v * u1 + (u1 * 2 ^ 64 + u0)) % 2 ^ 128
  let q0 := t % 2 ^ 64
  let q1 := wadd 64 (t / 2 ^ 64) 1
  let r := wsub 64 u0 (q1 * d)
  let c1 := decide (r > q0)
  let q1 := if c1 then wsub 64 q1 1 else q1
  let r := if c1 then wadd 64 r d else r
  if r ≥ d then (wadd 64 q1 1, wsub 64 r d) else (q1, r)

/-- The reciprocal path of 41_mul_reduce.md R124 (and of R133): the dividend `p` is aligned by `shift` with the
normalised divisor `d`, divided with the reciprocal `v`, and the remainder is shifted back. -/
def remByReciprocal (shift d v p : Nat) : Nat :=
  let x := p <<< shift
  (div2by1 (x / 2 ^ 64 % 2 ^ 64) (x % 2 ^ 64) d v).2 >>> shift

/-- One exit or iteration of the loop of `EXT_EUCLID_INV` after another (42_inv_sqrt.md R151): `(u, w)` is the running
remainder pair, `x1` and `x0` their cofactors. Cofactors are exact signed integers (log entry 15). The first argument
bounds the iterations; `euclidLoop_fuel` in Laws shows that the bound `extEuclidInv` gives is never reached. -/
def euclidLoop (M : Nat) : Nat → Nat → Nat → Int → Int → Option Nat
  | 0, _, _, _, _ => none
  | k + 1, u, w, x0, x1 =>
    if u ≤ 1 then some (if x1 < 0 then M - x1.natAbs else x1.natAbs)
    else if w = 0 then none
    else euclidLoop M k w (u % w) (x1 - ((u / w : Nat) : Int) * x0) x0

/-- `EXT_EUCLID_INV(a, M)` (42_inv_sqrt.md R151): the inverse, or `none` for "no inverse". -/
def extEuclidInv (W M a : Nat) : Option Nat :=
  if M ≤ 1 then none
  else if a = 0 then none
  else euclidLoop M (2 * W + 1) a M 0 1

/-- `x^e mod m` for an exponent of at most `k` bits, by square and multiply (42_inv_sqrt.md R161: any exact method;
log entry 16). -/
def powMod (m : Nat) : Nat → Nat → Nat → Nat
  | 0, _, _ => 1 % m
  | k + 1, x, e =>
    if e % 2 = 1 then x * powMod m k (x * x % m) (e / 2) % m else powMod m k (x * x % m) (e / 2)

/-- The candidate root `x^((M+1)/4) mod M` (42_inv_sqrt.md R160). -/
def rootCandidate (W M x : Nat) : Nat := powMod M W x ((M + 1) / 4)

/-- The square root with its success test (42_inv_sqrt.md R160, R162). -/
def sqrtMod (W M x : Nat) : Option Nat :=
  let r := rootCandidate W M x
  if r * r % M = x then some r else none

/-- The square root of `num * dinv` with SQRTR's success test (42_inv_sqrt.md R164). -/
def sqrtRatio (W M num den dinv : Nat) : Option Nat :=
  let x := num * dinv % M
  let r := rootCandidate W M x
  let sq := decide (r * r % M = x)
  if sq && (decide (num = 0) || decide (den ≠ 0)) then some r else none

/-- The exponent of 2 in `n`, for an `n` below `2^k` (10_state.md R25, "2-adic valuation"). -/
def valuation2 : Nat → Nat → Nat
  | 0, _ => 0
  | k + 1, n => if n % 2 = 0 then valuation2 k (n / 2) + 1 else 0

/-- `BE(b, n)` (00_scope.md R10): `b[0]` is the most significant byte. -/
def beValue : List Byte → Nat
  | [] => 0
  | b :: bs => b.toNat * 256 ^ bs.length + beValue bs

/-- The `n` bytes `(a >> (8 * (n - 1 - i))) & 0xFF`, `i` from `0` (43_codec.md R181, R182; `BE_n^-1` of 00_scope.md
R10). -/
def beBytes : Nat → Nat → List Byte
  | 0, _ => []
  | n + 1, a => BitVec.ofNat 8 (a >>> (8 * n)) :: beBytes n a

end Sys2Proof.Machine
end

