-- ==== Sys2Proof/Config.lean ====
section
/-! DEFINITION. What is fixed when an MFC instance is built (00_scope.md R3, R6; 10_state.md R22), the named
instance of the reset state, and the two free values of the model: the `DRAW_W` stream and the undefined constants. -/

namespace Sys2Proof

/-- The build-time parameters of one instance (00_scope.md R6). They are natural numbers, not bits, so that a bad
build (10_state.md R23, `CONFIG_OK` false) can be described too. Everything else that is fixed at build is computed
from these. The record stands in the state, so every statement about all states is about all instances. -/
structure Config where
  /-- native width in bits; legal: 16, 32, 64 -/
  W : Nat
  /-- modulus; legal: `2 <= M <= 2^W - 1` -/
  M : Nat
  /-- byte length of the codec's envelope form; legal: `NB <= ENV_BYTES <= 64` -/
  ENV_BYTES : Nat
  /-- byte length of the REDW and REDNZ operand; legal: `NB <= RED_BYTES <= 64`, default `2*NB` -/
  RED_BYTES : Nat
  /-- a multiplicative generator of the field; legal: a generator of the group mod `M` (a build with any other number is
  the model's own case: DESIGN CHOICE, log entry 22) -/
  GENERATOR : Nat
  /-- the string form of the modulus, implementation-defined text -/
  MODULUS_STR : List Byte
  deriving DecidableEq, Repr

/-- `NB`, the internal byte width `W/8` (00_scope.md R6). -/
def Config.NB (c : Config) : Nat := c.W / 8

/-- FREE VALUE. The stream behind `DRAW_W` (00_scope.md R11, 10_state.md R39): the `n`-th value drawn, of which the
instance keeps `W` bits. It has no body, so nothing can be proved about any value of it (log entry 4). -/
opaque Config.draw : Nat → BitVec 64

/-- FREE VALUE. What a published register of an instance holds where its definition gives no value for the build-time
parameters, or one that its width cannot hold, by the register's number (10_state.md R24, R25). It has no body (log
entry 11). -/
opaque Config.openConstant : Config → Nat → Nat

/-- The instance `MFC16` of 00_scope.md R6. `W` and `M` are the source's. DESIGN CHOICE (log entry 2), unsafe for a
claim about this record alone: `ENV_BYTES`, `GENERATOR` and `MODULUS_STR` are open in the spec. `RED_BYTES` is its
default. -/
def Config.mfc16 : Config where
  W := 16
  M := 0xffa7
  ENV_BYTES := 4
  RED_BYTES := 4
  GENERATOR := 5
  MODULUS_STR := [0x30, 0x78, 0x66, 0x66, 0x61, 0x37]

end Sys2Proof
end

