-- ==== Sys2Proof/Machine/State.lean ====
section
/-! DEFINITION. The state of one MFC instance and of the host that drives it, the reasons a step can stop, and the
state after reset (10_state.md). -/

namespace Sys2Proof.Machine

/-- The fault causes of the spec (60_exceptions.md R201), but for NONE. A fault of the spec is a NEXT state: the
sticky fault state of R205. These are its causes, not stops of the model. -/
inductive Cause where
  | illegalCommand
  | unwrittenOperand
  | operandRange
  | lengthMismatch
  | configInvalid
  | unsupportedModulus
  | divisorZero
  | dividendRange
  deriving DecidableEq, Repr

/-- Why the model stops. -/
inductive Fault where
  /-- Raised by REDW, REDNZ, ENC.ENV and DEC.ENV on an instance built with a `RED_BYTES` or `ENV_BYTES` outside the
  legal values of 00_scope.md R6 (`NB` to 64): the spec describes no such instance, and cells above `BUF[63]` do not
  exist (10_state.md R30). SAFE (log entry 9): the model stops where no hardware of the spec could be. -/
  | lengthParameter
  deriving DecidableEq, Repr

/-- Why the model gives an instruction no meaning. -/
inductive Refusal where
  /-- An instruction with no meaning yet, by its mnemonic. No arm of `exec` answers with it: every row of the table is
  modelled. SAFE. -/
  | notModelled (mnemonic : String)
  deriving DecidableEq, Repr

/-- The registers the host may read but not write (10_state.md R35). -/
inductive RoReg where
  | R
  | V
  | STATUS
  | FCMD
  | CFG_W
  | CFG_M
  | CONFIG_OK
  | CFG_SHIFT
  | CFG_DNORM
  | CFG_RECIP
  | CONST_ZERO
  | CONST_ONE
  | CONST_MODULUS_STR
  | CONST_NUM_BITS
  | CONST_CAPACITY
  | CONST_TWO_INV
  | CONST_GENERATOR
  | CONST_S
  | CONST_ROOT_OF_UNITY
  | CONST_ROOT_OF_UNITY_INV
  | CONST_DELTA
  deriving DecidableEq, Repr

/-- Every register the host may read (10_state.md R35). -/
inductive HostReg where
  | A
  | B
  | BUF (i : Fin 64)
  | BLEN
  | ro (r : RoReg)
  deriving DecidableEq, Repr

/-- One action of the host (60_exceptions.md R218, 30_encoding.md R90). -/
inductive HostAction where
  /-- write `A`, any 128-bit value (10_state.md R35) -/
  | wrA (v : BitVec 128)
  /-- write `B`, any 128-bit value -/
  | wrB (v : BitVec 128)
  /-- write one cell of `BUF` -/
  | wrBuf (i : Fin 64) (b : Byte)
  /-- write `BLEN` -/
  | wrBlen (n : BitVec 8)
  /-- a write to a register the host may not write: no effect (10_state.md R35) -/
  | wrReadOnly (r : RoReg) (v : Nat)
  /-- `MOV A, R`: read `R` and write the value to `A` -/
  | movA
  /-- `MOV B, R` -/
  | movB
  /-- `RD <reg>` -/
  | rd (r : HostReg)
  /-- issue a command word (30_encoding.md R80) -/
  | issue (w : CmdWord)
  /-- assert reset (70_reset_and_hazards.md R230), possibly in the same instant as an issue, which is then lost -/
  | reset (lost : Option CmdWord)
  deriving DecidableEq, Repr

/-- What the host's last `RD` got back (60_exceptions.md R218). -/
inductive ReadBack where
  /-- the host has read nothing yet -/
  | noRead
  /-- the read was refused: it returned no value (10_state.md R38) -/
  | refused
  | number (n : Nat)
  | text (bytes : List Byte)
  deriving DecidableEq, Repr

/-- The byte buffer: its written cells, in rising order of their index. A cell that is not listed is unwritten, the
spec's own state of a cell (10_state.md R30, R38; log entry 8). -/
abbrev Memory := List Host.Cell

/-- The canonical form of the buffer: indexes strictly rising, and only the cells `BUF[0..63]`. -/
abbrev Memory.wf (m : Memory) : Prop :=
  m.Pairwise (fun c d => c.1 < d.1) ∧ ∀ c ∈ m, c.1 < 64

/-- The state: one MFC instance and its host. An `Option` register has the spec's own *unwritten* state, `none`
(10_state.md R27 to R31, R38; log entry 3). -/
structure State where
  /-- the build-time parameters: `CFG_W`, `CFG_M` and what every other `CFG_*` and `CONST_*` is computed from -/
  cfg : Config
  /-- operand register (10_state.md R27) -/
  A : Option (BitVec 128)
  /-- operand register (10_state.md R27) -/
  B : Option (BitVec 128)
  /-- result register, `W` bits wide, held zero-extended (10_state.md R28; log entry 12) -/
  R : Option (BitVec 64)
  /-- validity flag (10_state.md R29) -/
  V : Option Bool
  /-- byte buffer (10_state.md R30) -/
  BUF : Memory
  /-- length of the sequence in `BUF` (10_state.md R31) -/
  BLEN : Option (BitVec 8)
  /-- status register (10_state.md R32) -/
  STATUS : BitVec 16
  /-- word of the faulting command (10_state.md R41) -/
  FCMD : CmdWord
  /-- the model's own: the host's pending actions, oldest first (log entry 5) -/
  host : List HostAction
  /-- the model's own: what the host's last read got (log entry 6) -/
  readBack : ReadBack
  /-- the model's own: how many values of the free stream `Config.draw` are used up (log entry 4) -/
  draws : Nat
  deriving DecidableEq, Repr

/-- The state of an instance right after reset (10_state.md R48): everything the host or a command writes is
unwritten, `STATUS` and `FCMD` are zero, the configuration is as built. The host has no action pending. -/
def State.resetOf (c : Config) : State where
  cfg := c
  A := none
  B := none
  R := none
  V := none
  BUF := []
  BLEN := none
  STATUS := 0
  FCMD := 0
  host := []
  readBack := .noRead
  draws := 0

/-- The machine right after reset, for the instance `MFC16` (DESIGN CHOICE, log entry 1: the spec gives one reset
state for each instance, `State.resetOf`). -/
def State.reset : State := State.resetOf Config.mfc16

end Sys2Proof.Machine
end

