-- ==== Sys2Proof/Machine/Ops.lean ====
section
/-! DEFINITION. The operations every command shares: the configuration check and the reciprocal record, the cells of
`BUF`, entering the fault state and leaving it by reset, the free value, and how a command passes its common checks,
completes or faults (10_state.md, 60_exceptions.md). -/

namespace Sys2Proof.Machine

/-- The outcome of a command or a step. -/
abbrev Result := Host.Outcome State Fault Refusal

/-! ## Configuration -/

/-- `CONFIG_OK` (10_state.md R23). -/
def configOk (c : Config) : Bool :=
  (decide (c.W = 16) || decide (c.W = 32) || decide (c.W = 64)) && decide (2 ≤ c.M) && decide (c.M ≤ 2 ^ c.W - 1)

/-- A build-time byte length is legal when it lies between `NB` and the 64 cells of `BUF` (00_scope.md R6). -/
def lengthOk (c : Config) (n : Nat) : Bool := decide (c.NB ≤ n) && decide (n ≤ 64)

/-- `CFG_SHIFT` (10_state.md R24). -/
def cfgShift (c : Config) : Nat := clz64 c.M

/-- `CFG_DNORM` (10_state.md R24). -/
def cfgDnorm (c : Config) : Nat := c.M <<< cfgShift c

/-- `CFG_RECIP` (10_state.md R24). -/
def cfgRecip (c : Config) : Nat := reciprocal (cfgDnorm c)

/-- `REDUCE_WIDE(p)`: direct remainder for 16 and 32 bits (41_mul_reduce.md R123), the reciprocal record for 64
(R124). -/
def reduceWide (c : Config) (p : Nat) : Nat :=
  if c.W = 64 then remByReciprocal (cfgShift c) (cfgDnorm c) (cfgRecip c) p else p % c.M

/-! ## The cells of BUF -/

/-- `BUF[i]`: its byte, or `none` when the cell is unwritten (10_state.md R30, R38). -/
def Memory.read : Memory → Nat → Option Byte
  | [], _ => none
  | (k, v) :: m, i => if k = i then some v else Memory.read m i

/-- `BUF[i] <- b`. -/
def Memory.write : Memory → Nat → Byte → Memory
  | [], i, b => [(i, b)]
  | (k, v) :: m, i, b =>
    if i < k then (i, b) :: (k, v) :: m
    else if i = k then (i, b) :: m
    else (k, v) :: Memory.write m i b

/-- The `n` bytes from `BUF[i]` up, when all of them are written. -/
def Memory.readFrom (m : Memory) : Nat → Nat → Option (List Byte)
  | _, 0 => some []
  | i, n + 1 =>
    match Memory.read m i with
    | none => none
    | some b => (Memory.readFrom m (i + 1) n).map (b :: ·)

/-- Writes a byte sequence to the cells from `BUF[i]` up. -/
def Memory.writeFrom (m : Memory) : Nat → List Byte → Memory
  | _, [] => m
  | i, b :: bs => Memory.writeFrom (Memory.write m i b) (i + 1) bs

/-! ## The fault state -/

/-- The cause codes (60_exceptions.md R201). -/
def Cause.code : Cause → BitVec 8
  | .illegalCommand => 0x01
  | .unwrittenOperand => 0x02
  | .operandRange => 0x03
  | .lengthMismatch => 0x04
  | .configInvalid => 0x05
  | .unsupportedModulus => 0x06
  | .divisorZero => 0x07
  | .dividendRange => 0x08

/-- `STATUS` in the fault state: `CAUSE` in bits `[15:8]`, reserved bits zero, `FAULTED` in bit `[0]` (10_state.md
R32). -/
def statusOf (c : Cause) : BitVec 16 := c.code ++ (0 : BitVec 7) ++ (1 : BitVec 1)

/-- `STATUS.FAULTED` (10_state.md R32). -/
def State.faulted (s : State) : Bool := s.STATUS.getLsbD 0

/-- `STATUS.CAUSE` (10_state.md R32). -/
def State.cause (s : State) : BitVec 8 := s.STATUS.extractLsb' 8 8

/-- Fault entry (60_exceptions.md R205): `STATUS` and `FCMD` are written, nothing else. -/
def State.raise (s : State) (c : Cause) (w : CmdWord) : State :=
  { s with STATUS := statusOf c, FCMD := w }

/-- Reset, the only way out of the fault state (70_reset_and_hazards.md R230, R231; 60_exceptions.md R207): the reset
state of 10_state.md R48 with the configuration as built. The host's own fields and the free stream go on (log entries
4 and 5). -/
def State.hostReset (s : State) : State :=
  { State.resetOf s.cfg with host := s.host, readBack := s.readBack, draws := s.draws }

/-! ## The free value -/

/-- `DRAW_W`: the `n`-th free value, as a `W`-bit value (00_scope.md R11, 10_state.md R39). -/
def drawW (W n : Nat) : Nat := (Config.draw n).toNat % 2 ^ W

/-! ## Issuing a command -/

/-- How a command ends without its effect: with a fault of the spec, or with a stop of the model. -/
inductive Stop where
  | cause (c : Cause)
  | stuck (f : Fault)
  deriving DecidableEq, Repr

/-- Steps 1 and 2 of the common issue checks for a command (60_exceptions.md R202, R203, R204). -/
def issueChecks (i : Instr) (s : State) : Except Stop Unit :=
  if configOk s.cfg = false then .error (.cause .configInvalid)
  else if ¬ WellFormed s.cfg.W i then .error (.cause .illegalCommand)
  else .ok ()

/-- Step 3 of the common issue checks (60_exceptions.md R202, 42_inv_sqrt.md R163). -/
def checkModulus (c : Config) : Except Stop Unit :=
  if c.M % 4 ≠ 3 then .error (.cause .unsupportedModulus) else .ok ()

/-- The model's own check of a build-time byte length (00_scope.md R6; log entry 9). -/
def checkLength (c : Config) (n : Nat) : Except Stop Unit :=
  if lengthOk c n = false then .error (.stuck .lengthParameter) else .ok ()

/-- Performing a command (60_exceptions.md R200, R202, R205, R206): in the fault state nothing happens; otherwise the
common checks, then `body`, which gives the state after the command, or the reason it does not complete. A fault is
precise: the state it is raised in is the one before the command. -/
def command (i : Instr) (s : State) (body : Except Stop State) : Result :=
  if s.faulted then .next s
  else
    match (issueChecks i s).bind fun _ => body with
    | .ok t => .next t
    | .error (.cause c) => .next (s.raise c (encode i))
    | .error (.stuck f) => .fault f

/-- Issuing a word the decoder refuses on every instance (60_exceptions.md R202 steps 1 and 2, R206). -/
def issueIllegal (w : CmdWord) (s : State) : Result :=
  if s.faulted then .next s
  else if configOk s.cfg = false then .next (s.raise .configInvalid w)
  else .next (s.raise .illegalCommand w)

end Sys2Proof.Machine
end

