-- ==== Sys2Proof/Machine/Operands.lean ====
section
/-! DEFINITION. The operand forms (30_encoding.md R86): one or two field elements, a byte sequence, and REMR's
dividend and divisor, each with its checks in the order of 60_exceptions.md R202. -/

namespace Sys2Proof.Machine

/-- A register a command needs: its value, or UNWRITTEN_OPERAND (10_state.md R38). -/
def written {n : Nat} (r : Option (BitVec n)) : Except Stop Nat :=
  match r with
  | none => .error (.cause .unwrittenOperand)
  | some v => .ok v.toNat

/-- The field-element operand `A` (60_exceptions.md R202 steps 4a and 4c; 10_state.md R40). -/
def fieldOperand (s : State) : Except Stop Nat :=
  (written s.A).bind fun a =>
  if s.cfg.M ≤ a then .error (.cause .operandRange) else .ok a

/-- The field-element operands `A` and `B` of a binary command (60_exceptions.md R202 steps 4a to 4d). -/
def fieldOperands (s : State) : Except Stop (Nat × Nat) :=
  (written s.A).bind fun a =>
  (written s.B).bind fun b =>
  if s.cfg.M ≤ a then .error (.cause .operandRange)
  else if s.cfg.M ≤ b then .error (.cause .operandRange)
  else .ok (a, b)

/-- The byte operand of length `n` (60_exceptions.md R202 steps 5a to 5c). -/
def byteOperand (s : State) (n : Nat) : Except Stop (List Byte) :=
  (written s.BLEN).bind fun len =>
  if len ≠ n then .error (.cause .lengthMismatch)
  else match Memory.readFrom s.BUF 0 n with
    | none => .error (.cause .unwrittenOperand)
    | some bs => .ok bs

/-- The 128-bit dividend `A` and the divisor `B` of REMR (60_exceptions.md R202 steps 6a to 6d). -/
def remrOperands (s : State) : Except Stop (Nat × Nat) :=
  (written s.A).bind fun x =>
  (written s.B).bind fun m =>
  if 2 ^ 64 ≤ m then .error (.cause .operandRange)
  else if m = 0 then .error (.cause .divisorZero)
  else if m ≤ x / 2 ^ 64 then .error (.cause .dividendRange)
  else .ok (x, m)

end Sys2Proof.Machine
end

