-- ==== Sys2Proof/Machine/Flags.lean ====
section
/-! DEFINITION. How a command completes: the validity flag `V`, the machine's only flag (10_state.md R29), written
with the result it speaks of, and the command shapes built from that. -/

namespace Sys2Proof.Machine

/-- `R <- r; V <- 1`. `R` keeps `W` bits (10_state.md R28). -/
def State.result (s : State) (r : Nat) : State :=
  { s with R := some (BitVec.ofNat 64 (r % 2 ^ s.cfg.W)), V := some true }

/-- The soft outcome `R <- DRAW_W; V <- 0` (00_scope.md R11, 60_exceptions.md R208): one free value is used up. -/
def State.soft (s : State) : State :=
  { s with R := some (BitVec.ofNat 64 (drawW s.cfg.W s.draws)), V := some false, draws := s.draws + 1 }

/-- The optional result of 00_scope.md R11. -/
def State.optional (s : State) : Option Nat → State
  | some r => s.result r
  | none => s.soft

/-- ENC's completion: `BUF[0..n-1]` holds the big-endian bytes of `a`, `BLEN <- n`, `V <- 1`; `R` is unchanged
(43_codec.md R181, R182). -/
def State.encoded (s : State) (n a : Nat) : State :=
  { s with BUF := Memory.writeFrom s.BUF 0 (beBytes n a), BLEN := some (BitVec.ofNat 8 n), V := some true }

/-- A command with one field operand and a result that is always present. -/
def unaryCommand (i : Instr) (s : State) (f : Nat → Nat) : Result :=
  command i s ((fieldOperand s).map fun a => s.result (f a))

/-- A command with two field operands and a result that is always present. -/
def binaryCommand (i : Instr) (s : State) (f : Nat → Nat → Nat) : Result :=
  command i s ((fieldOperands s).map fun p => s.result (f p.1 p.2))

end Sys2Proof.Machine
end

