-- ==== Sys2Proof/Machine/AddSub.lean ====
section
/-! DEFINITION. ADD, DBL, SUB, NEG (40_add_sub_neg.md). -/

namespace Sys2Proof.Machine

/-- ADD (40_add_sub_neg.md R101). -/
def execAdd (w : Width) (s : State) : Result :=
  binaryCommand (.add w) s fun a b => addMod s.cfg.W s.cfg.M a b

/-- SUB (40_add_sub_neg.md R103). -/
def execSub (w : Width) (s : State) : Result :=
  binaryCommand (.sub w) s fun a b => subMod s.cfg.W s.cfg.M a b

/-- NEG (40_add_sub_neg.md R104). -/
def execNeg (w : Width) (s : State) : Result :=
  unaryCommand (.neg w) s fun a => negMod s.cfg.W s.cfg.M a

/-- DBL: the adder with `b = a`; `B` is not read (40_add_sub_neg.md R102). -/
def execDbl (w : Width) (s : State) : Result :=
  unaryCommand (.dbl w) s fun a => addMod s.cfg.W s.cfg.M a a

end Sys2Proof.Machine
end

