-- ==== Sys2Proof/Machine/Codec.lean ====
section
/-! DEFINITION. ENC, ENC.ENV, DEC, DEC.ENV, ISODD (43_codec.md). -/

namespace Sys2Proof.Machine

/-- ENC: the internal width `NB` (43_codec.md R181). -/
def execEnc (w : Width) (s : State) : Result :=
  command (.enc w) s ((fieldOperand s).map fun a => s.encoded s.cfg.NB a)

/-- ENC.ENV: the envelope width (43_codec.md R182). -/
def execEncEnv (w : Width) (s : State) : Result :=
  command (.encEnv w) s ((checkLength s.cfg s.cfg.ENV_BYTES).bind fun _ =>
    (fieldOperand s).map fun a => s.encoded s.cfg.ENV_BYTES a)

/-- The range-checked value of an encoding (43_codec.md R183). -/
def decodeValue (c : Config) (bs : List Byte) : Option Nat :=
  let x := beValue bs
  if x < c.M then some x else none

/-- The same with the padding test of the envelope form (43_codec.md R184): all bytes before the last `NB` are
zero. -/
def decodeEnvelope (c : Config) (bs : List Byte) : Option Nat :=
  let padOk := (bs.take (c.ENV_BYTES - c.NB)).all (fun b => b == 0)
  let x := beValue bs
  if padOk && decide (x < c.M) then some x else none

/-- DEC (43_codec.md R183). -/
def execDec (w : Width) (s : State) : Result :=
  command (.dec w) s ((byteOperand s s.cfg.NB).map fun bs => s.optional (decodeValue s.cfg bs))

/-- DEC.ENV (43_codec.md R184). -/
def execDecEnv (w : Width) (s : State) : Result :=
  command (.decEnv w) s ((checkLength s.cfg s.cfg.ENV_BYTES).bind fun _ =>
    (byteOperand s s.cfg.ENV_BYTES).map fun bs => s.optional (decodeEnvelope s.cfg bs))

/-- ISODD: the parity of the canonical value (43_codec.md R185). -/
def execIsodd (w : Width) (s : State) : Result :=
  unaryCommand (.isodd w) s fun a => a % 2

end Sys2Proof.Machine
end

