-- ==== Sys2Proof/Machine/InvSqrt.lean ====
section
/-! DEFINITION. INV, SQRT, SQRTR (42_inv_sqrt.md): the commands whose result may be absent. -/

namespace Sys2Proof.Machine

/-- INV (42_inv_sqrt.md R150, R151). -/
def execInv (w : Width) (s : State) : Result :=
  command (.inv w) s ((fieldOperand s).map fun a => s.optional (extEuclidInv s.cfg.W s.cfg.M a))

/-- SQRT (42_inv_sqrt.md R160 to R163). -/
def execSqrt (w : Width) (s : State) : Result :=
  command (.sqrt w) s ((checkModulus s.cfg).bind fun _ =>
    (fieldOperand s).map fun x => s.optional (sqrtMod s.cfg.W s.cfg.M x))

/-- SQRTR's `dinv` (42_inv_sqrt.md R164), with the state it leaves the free stream in: 0 for `den = 0`, else the INV
result of `den`. Where `den` has no inverse (a composite `M` only) that result is INV's `DRAW_W`: a free value, and
everything computed from it is computed from the free value (DESIGN CHOICE, log entry 10). -/
def ratioInverse (s : State) (den : Nat) : Nat × State :=
  if den = 0 then (0, s)
  else match extEuclidInv s.cfg.W s.cfg.M den with
    | some r => (r, s)
    | none => (drawW s.cfg.W s.draws, { s with draws := s.draws + 1 })

/-- SQRTR (42_inv_sqrt.md R163, R164). -/
def execSqrtr (w : Width) (s : State) : Result :=
  command (.sqrtr w) s ((checkModulus s.cfg).bind fun _ =>
    (fieldOperands s).map fun p =>
      let d := ratioInverse s p.2
      d.2.optional (sqrtRatio s.cfg.W s.cfg.M p.1 p.2 d.1))

end Sys2Proof.Machine
end

