-- ==== Sys2Proof/Machine/MulReduce.lean ====
section
/-! DEFINITION. MUL, SQR, REDW, REDNZ, REMR (41_mul_reduce.md). -/

namespace Sys2Proof.Machine

/-- MUL: the exact wide product, reduced (41_mul_reduce.md R120, R122). -/
def execMul (w : Width) (s : State) : Result :=
  binaryCommand (.mul w) s fun a b => reduceWide s.cfg (a * b)

/-- SQR (41_mul_reduce.md R121). -/
def execSqr (w : Width) (s : State) : Result :=
  unaryCommand (.sqr w) s fun a => reduceWide s.cfg (a * a)

/-- The shape of REDW and REDNZ: a byte operand of length `RED_BYTES` and its big-endian value. -/
def reduceCommand (i : Instr) (s : State) (f : Nat → Nat) : Result :=
  command i s ((checkLength s.cfg s.cfg.RED_BYTES).bind fun _ =>
    (byteOperand s s.cfg.RED_BYTES).map fun bs => s.result (f (beValue bs)))

/-- REDW: `x mod M`, exact for every `x` (41_mul_reduce.md R128, 90_conflicts.md C7). -/
def execRedw (w : Width) (s : State) : Result :=
  reduceCommand (.redw w) s fun x => x % s.cfg.M

/-- REDNZ: `(x mod (M - 1)) + 1` (41_mul_reduce.md R129). -/
def execRednz (w : Width) (s : State) : Result :=
  reduceCommand (.rednz w) s fun x => x % (s.cfg.M - 1) + 1

/-- REMR: `A mod B` with a reciprocal of `B` made for this command alone (41_mul_reduce.md R133, 90_conflicts.md
C6). -/
def execRemr (s : State) : Result :=
  command .remr s ((remrOperands s).map fun p =>
    let shift := clz64 p.2
    let d := p.2 <<< shift
    s.result (remByReciprocal shift d (reciprocal d) p.1))

end Sys2Proof.Machine
end

