-- ==== Sys2Proof/Machine/Dispatch.lean ====
section
/-! DEFINITION. Which meaning each command has: one arm per constructor of Instr. -/

namespace Sys2Proof.Machine

def exec (i : Instr) (s : State) : Host.Outcome State Fault Refusal :=
  match i with
  | .add w => Sys2Proof.Machine.execAdd w s
  | .sub w => Sys2Proof.Machine.execSub w s
  | .neg w => Sys2Proof.Machine.execNeg w s
  | .dbl w => Sys2Proof.Machine.execDbl w s
  | .mul w => Sys2Proof.Machine.execMul w s
  | .sqr w => Sys2Proof.Machine.execSqr w s
  | .redw w => Sys2Proof.Machine.execRedw w s
  | .rednz w => Sys2Proof.Machine.execRednz w s
  | .inv w => Sys2Proof.Machine.execInv w s
  | .sqrt w => Sys2Proof.Machine.execSqrt w s
  | .sqrtr w => Sys2Proof.Machine.execSqrtr w s
  | .enc w => Sys2Proof.Machine.execEnc w s
  | .encEnv w => Sys2Proof.Machine.execEncEnv w s
  | .dec w => Sys2Proof.Machine.execDec w s
  | .decEnv w => Sys2Proof.Machine.execDecEnv w s
  | .isodd w => Sys2Proof.Machine.execIsodd w s
  | .remr => Sys2Proof.Machine.execRemr s

end Sys2Proof.Machine
end

