-- ==== Sys2Proof/Machine/Constants.lean ====
section
/-! DEFINITION. The values an instance publishes, the reciprocal record (10_state.md R24) and the `CONST_*` registers
(R25), computed from the build-time parameters whether or not these are `CONFIG_OK`. A definition that gives no value is
`none`; the register then holds a free value. A value that is defined from another register's is computed from that
register's definition, also where that register holds a free value (DESIGN CHOICE, both log entry 11). -/

namespace Sys2Proof.Machine

/-- A free value below `bound` for the published register number `k`. -/
def openValue (c : Config) (k bound : Nat) : Nat := Config.openConstant c k % bound

/-- What the published register number `k`, whose values lie below `bound`, holds: its defined value where there is one
that the register can hold, a free one otherwise. -/
def published (c : Config) (k bound : Nat) (v : Option Nat) : Nat :=
  match v with
  | some v => if v < bound then v else openValue c k bound
  | none => openValue c k bound

/-- A value of the reciprocal record: the formulas of R24 speak of a nonzero 64-bit `M`. -/
def recordValue (c : Config) (v : Nat) : Option Nat := if 1 ≤ c.M ∧ c.M < 2 ^ 64 then some v else none

/-- `CONST_NUM_BITS`: the bit length of `M`. -/
def constNumBits (c : Config) : Nat := bitLength c.M

/-- `CONST_CAPACITY`: one less than the bit length, also where `CONST_NUM_BITS` cannot hold that (DESIGN CHOICE, log entry
11); none for `M = 0`. -/
def constCapacity (c : Config) : Option Nat := if c.M = 0 then none else some (constNumBits c - 1)

/-- `CONST_TWO_INV`: `(M + 1) / 2` for odd `M`. R25 gives no value for an even `M`, where 2 has no inverse. -/
def constTwoInv (c : Config) : Option Nat := if c.M % 2 = 1 then some ((c.M + 1) / 2) else none

/-- The 2-adic valuation of `M - 1`. -/
def valuationS (c : Config) : Nat := valuation2 (bitLength c.M) (c.M - 1)

/-- `CONST_S`: the largest `S` with `2^S` dividing `M - 1`; there is none for `M` below 2. -/
def constS (c : Config) : Option Nat := if 2 ≤ c.M then some (valuationS c) else none

/-- `CONST_ROOT_OF_UNITY`: `GENERATOR^((M-1) / 2^S) mod M`; for `M = 1` every remainder is 0, whatever `S` is. For a
composite `M` with `S = 1` the formula is followed where R25's words call the value `M - 1` (DESIGN CHOICE, log entry
23). -/
def constRootOfUnity (c : Config) : Option Nat :=
  if c.M = 0 then none else some (powMod c.M (bitLength c.M) c.GENERATOR ((c.M - 1) / 2 ^ valuationS c))

/-- `CONST_ROOT_OF_UNITY_INV`: the inverse modulo `M` of the root as the formula gives it, also where
`CONST_ROOT_OF_UNITY` cannot hold that (DESIGN CHOICE, log entry 11) and for a composite `M` with `S = 1` (DESIGN CHOICE,
log entry 23). R25 gives no value where there is none. -/
def constRootOfUnityInv (c : Config) : Option Nat := (constRootOfUnity c).bind (extEuclidInv (bitLength c.M) c.M)

/-- `CONST_DELTA`: `GENERATOR^(2^S) mod M`. -/
def constDelta (c : Config) : Option Nat :=
  if c.M = 0 then none else some (powMod c.M (bitLength c.M) c.GENERATOR (2 ^ valuationS c))

end Sys2Proof.Machine
end

