-- ==== Sys2Proof/Machine/HostActions.lean ====
section
/-! DEFINITION. What the host's actions other than issuing a command do (10_state.md R35, R38; 30_encoding.md R90;
60_exceptions.md R218; 70_reset_and_hazards.md R230). They work in the fault state too: reads by 60_exceptions.md R206,
writes by 95_test_vectors.md P4 step 3, reset by 60_exceptions.md R207. -/

namespace Sys2Proof.Machine

/-- A number the host gets, or a refusal where there is no value. -/
def ReadBack.ofOption : Option Nat → ReadBack
  | some n => .number n
  | none => .refused

/-- A register of the reciprocal record: there is none for `W` other than 64 (10_state.md R24), and reading what is not
there is refused (DEDUCED, log entry 11). -/
def readRecord (c : Config) (k bound v : Nat) : ReadBack :=
  if c.W = 64 then .number (published c k bound (recordValue c v)) else .refused

/-- Reading a register of the read-only set. `R`, `V`: refused while unwritten (10_state.md R38). `STATUS`: the
reserved bits read as zero (R32). The numeric constants are `W` bits wide, but for three of 8 bits (R25). A `GENERATOR`
outside its legal values is published where it fits `W` bits (DESIGN CHOICE, log entry 22). -/
def readReadOnly (s : State) : RoReg → ReadBack
  | .R => .ofOption (s.R.map BitVec.toNat)
  | .V => .ofOption (s.V.map fun v => if v then 1 else 0)
  | .STATUS => .number (s.STATUS &&& 0xFF01).toNat
  | .FCMD => .number s.FCMD.toNat
  | .CFG_W => .number s.cfg.W
  | .CFG_M => .number s.cfg.M
  | .CONFIG_OK => .number (if configOk s.cfg then 1 else 0)
  | .CFG_SHIFT => readRecord s.cfg 0 64 (cfgShift s.cfg)
  | .CFG_DNORM => readRecord s.cfg 1 (2 ^ 64) (cfgDnorm s.cfg)
  | .CFG_RECIP => readRecord s.cfg 2 (2 ^ 64) (cfgRecip s.cfg)
  | .CONST_ZERO => .number 0
  | .CONST_ONE => .number (published s.cfg 11 (2 ^ s.cfg.W) (some 1))
  | .CONST_MODULUS_STR => .text s.cfg.MODULUS_STR
  | .CONST_NUM_BITS => .number (published s.cfg 3 256 (some (constNumBits s.cfg)))
  | .CONST_CAPACITY => .number (published s.cfg 4 256 (constCapacity s.cfg))
  | .CONST_TWO_INV => .number (published s.cfg 5 (2 ^ s.cfg.W) (constTwoInv s.cfg))
  | .CONST_GENERATOR => .number (published s.cfg 10 (2 ^ s.cfg.W) (some s.cfg.GENERATOR))
  | .CONST_S => .number (published s.cfg 6 256 (constS s.cfg))
  | .CONST_ROOT_OF_UNITY => .number (published s.cfg 7 (2 ^ s.cfg.W) (constRootOfUnity s.cfg))
  | .CONST_ROOT_OF_UNITY_INV => .number (published s.cfg 8 (2 ^ s.cfg.W) (constRootOfUnityInv s.cfg))
  | .CONST_DELTA => .number (published s.cfg 9 (2 ^ s.cfg.W) (constDelta s.cfg))

/-- A host read of a register (10_state.md R35, R38): no side effect, and no value from an unwritten register. -/
def hostRead (s : State) : HostReg → ReadBack
  | .A => .ofOption (s.A.map BitVec.toNat)
  | .B => .ofOption (s.B.map BitVec.toNat)
  | .BUF i => .ofOption ((Memory.read s.BUF i.val).map BitVec.toNat)
  | .BLEN => .ofOption (s.BLEN.map BitVec.toNat)
  | .ro r => readReadOnly s r

/-- The value of `R` copied to a 128-bit operand register that holds `old` (30_encoding.md R90). Reading an unwritten
`R` yields nothing, so nothing is written (DEDUCED, log entry 7). -/
def copyOfR (s : State) (old : Option (BitVec 128)) : Option (BitVec 128) :=
  match s.R with
  | some r => some (r.setWidth 128)
  | none => old

/-- The effect of one host action. Writes and copies have it in the fault state too: "Host writes still take effect"
(95_test_vectors.md P4 step 3). An `issue` does nothing here: the command it delivers is performed by `issue` of
Machine/Issue.lean. -/
def hostEffect (s : State) : HostAction → State
  | .wrA v => { s with A := some v }
  | .wrB v => { s with B := some v }
  | .wrBuf i b => { s with BUF := Memory.write s.BUF i.val b }
  | .wrBlen n => { s with BLEN := some n }
  | .wrReadOnly _ _ => s
  | .movA => { s with A := copyOfR s s.A }
  | .movB => { s with B := copyOfR s s.B }
  | .rd r => { s with readBack := hostRead s r }
  | .reset _ => s.hostReset
  | .issue _ => s

/-- `WRBUF <b0> <b1> ...` as the host accesses it stands for: one write for each cell from `BUF[i]` up, then `BLEN`
(30_encoding.md R90, 20_memory.md R65). `none` when the sequence does not fit the 64 cells. -/
def wrbufFrom (len : BitVec 8) : Nat → List Byte → Option (List HostAction)
  | _, [] => some [.wrBlen len]
  | i, b :: bs =>
    if h : i < 64 then (wrbufFrom len (i + 1) bs).map (HostAction.wrBuf ⟨i, h⟩ b :: ·) else none

/-- `WRBUF` with the bytes `bs` (30_encoding.md R90). -/
def wrbuf (bs : List Byte) : Option (List HostAction) := wrbufFrom (BitVec.ofNat 8 bs.length) 0 bs

end Sys2Proof.Machine
end

