-- ==== Sys2Proof/Machine/Issue.lean ====
section
/-! DEFINITION. Issuing a command word, and one step of the machine: the oldest pending action of the host happens
(10_state.md R21, R35; 20_memory.md R68; 30_encoding.md R80). -/

namespace Sys2Proof.Machine

/-- The host issues the word `w`: it is decoded and the command is performed (60_exceptions.md R202). -/
def issue (w : CmdWord) (s : State) : Result :=
  match decode w with
  | .ok i => exec i s
  | .error _ => issueIllegal w s

/-- One host action, with the pending actions already shortened by it. -/
def perform (act : HostAction) (s : State) : Result :=
  match act with
  | .issue w => issue w s
  | .wrA _ | .wrB _ | .wrBuf _ _ | .wrBlen _ | .wrReadOnly _ _ | .movA | .movB | .rd _ | .reset _ =>
    .next (hostEffect s act)

/-- What one step does: the oldest pending action happens; with none pending the MFC is idle and holds all its
registers (60_exceptions.md R217, 70_reset_and_hazards.md R230). -/
def stepAction (s : State) : Result :=
  match s.host with
  | [] => .next s
  | act :: rest => perform act { s with host := rest }

/-- The host is about to issue the word `w`. -/
def State.withIssue (s : State) (w : CmdWord) : State := { s with host := .issue w :: s.host }

end Sys2Proof.Machine
end

