-- ==== Sys2Proof/Machine/Step.lean ====
section
/-! DEFINITION. One step of the machine, and how an instruction is placed where the next step takes it. -/

namespace Sys2Proof.Machine

/-- One step (Machine/Issue.lean, `stepAction`). -/
def step (s : State) : Host.Outcome State Fault Refusal := stepAction s

/-- `s` with the command word `w` issued next. The MFC fetches nothing: each command word is delivered by the host
(20_memory.md R71, 30_encoding.md R80), so this stands for the host's issue (log entry 5). -/
def State.withFetchWord (s : State) (nbits w : Nat) : State := s.withIssue (BitVec.ofNat 32 (w % 2 ^ nbits))

end Sys2Proof.Machine
end

