-- ==== Sys2Proof/Safety.lean ====
section
/-! DEFINITION. The terms claims about the MFC are stated in: the invariant, when a command is ready to be performed,
and the spec's own order of checks, written apart from the machine. -/

namespace Sys2Proof.Machine

/-- The machine's invariant. `BUF` is in canonical form; a written `R` fits `W` bits (10_state.md R28); every command
that writes `R` writes `V` (R36); `STATUS` is zero with `FCMD` zero, or is the word of a fault cause (R32, R41,
60_exceptions.md R201). -/
structure State.Inv (s : State) : Prop where
  buf : s.BUF.wf
  width : ∀ r, s.R = some r → r.toNat < 2 ^ s.cfg.W
  valid : s.R ≠ none → s.V ≠ none
  status : (s.STATUS = 0 ∧ s.FCMD = 0) ∨ ∃ c, s.STATUS = statusOf c

/-- The command `i` gets past steps 1 and 2 of the common issue checks (60_exceptions.md R202) in a machine that is
not in the fault state. -/
abbrev State.Ready (s : State) (i : Instr) : Prop :=
  s.faulted = false ∧ configOk s.cfg = true ∧ WellFormed s.cfg.W i

/-- The byte-length parameters are legal (00_scope.md R6). -/
abbrev LegalLengths (c : Config) : Prop := lengthOk c c.ENV_BYTES = true ∧ lengthOk c c.RED_BYTES = true

/-- `BUF` holds the byte sequence `bs` from `BUF[0]` up. -/
abbrev Holds (m : Memory) (bs : List Byte) : Prop := ∀ k < bs.length, Memory.read m k = bs[k]?

/-- Field-operand commands (60_exceptions.md R202 step 4). -/
def fieldCommand : Instr → Bool
  | .add _ | .sub _ | .neg _ | .dbl _ | .mul _ | .sqr _ | .inv _ | .sqrt _ | .sqrtr _ | .enc _ | .encEnv _
  | .isodd _ => true
  | .redw _ | .rednz _ | .dec _ | .decEnv _ | .remr => false

/-- Binary field-operand commands (60_exceptions.md R202 step 4b). -/
def binaryField : Instr → Bool
  | .add _ | .sub _ | .mul _ | .sqrtr _ => true
  | .neg _ | .dbl _ | .sqr _ | .inv _ | .sqrt _ | .enc _ | .encEnv _ | .isodd _ | .redw _ | .rednz _ | .dec _
  | .decEnv _ | .remr => false

/-- The square-root commands (60_exceptions.md R202 step 3). -/
def rootCommand : Instr → Bool
  | .sqrt _ | .sqrtr _ => true
  | .add _ | .sub _ | .neg _ | .dbl _ | .mul _ | .sqr _ | .inv _ | .enc _ | .encEnv _ | .isodd _ | .redw _
  | .rednz _ | .dec _ | .decEnv _ | .remr => false

/-- The two commands that write `BUF` (10_state.md R36). -/
def encodeCommand : Instr → Bool
  | .enc _ | .encEnv _ => true
  | .add _ | .sub _ | .neg _ | .dbl _ | .mul _ | .sqr _ | .inv _ | .sqrt _ | .sqrtr _ | .isodd _ | .redw _
  | .rednz _ | .dec _ | .decEnv _ | .remr => false

/-- The five commands that may end in a soft outcome (60_exceptions.md R208). -/
def softCommand : Instr → Bool
  | .inv _ | .sqrt _ | .sqrtr _ | .dec _ | .decEnv _ => true
  | .add _ | .sub _ | .neg _ | .dbl _ | .mul _ | .sqr _ | .enc _ | .encEnv _ | .isodd _ | .redw _ | .rednz _
  | .remr => false

/-- The length in bytes of a byte-operand command (60_exceptions.md R202 step 5; 41_mul_reduce.md R128, 43_codec.md
R183, R184); 0 for a command that has none. -/
def byteLength (c : Config) : Instr → Nat
  | .redw _ | .rednz _ => c.RED_BYTES
  | .dec _ => c.NB
  | .decEnv _ => c.ENV_BYTES
  | .add _ | .sub _ | .neg _ | .dbl _ | .mul _ | .sqr _ | .inv _ | .sqrt _ | .sqrtr _ | .enc _ | .encEnv _
  | .isodd _ | .remr => 0

/-- The register's value is at least `n`. -/
def atLeast (n : Nat) (r : Option (BitVec 128)) : Bool :=
  match r with
  | some v => decide (n ≤ v.toNat)
  | none => false

/-- Step 4 of 60_exceptions.md R202: the first check that fails for a field-operand command. -/
def fieldFailure (i : Instr) (s : State) : Option Cause :=
  if s.A = none then some .unwrittenOperand
  else if binaryField i = true ∧ s.B = none then some .unwrittenOperand
  else if atLeast s.cfg.M s.A = true then some .operandRange
  else if binaryField i = true ∧ atLeast s.cfg.M s.B = true then some .operandRange
  else none

/-- Step 5 of 60_exceptions.md R202, for a byte operand of length `n`. -/
def byteFailure (n : Nat) (s : State) : Option Cause :=
  if s.BLEN = none then some .unwrittenOperand
  else if s.BLEN.map BitVec.toNat ≠ some n then some .lengthMismatch
  else if ∃ k < n, Memory.read s.BUF k = none then some .unwrittenOperand
  else none

/-- The high word of the dividend is at least the divisor (60_exceptions.md R202 step 6d). -/
def quotientTooWide (x m : Option (BitVec 128)) : Bool :=
  match x, m with
  | some x, some m => decide (m.toNat ≤ x.toNat / 2 ^ 64)
  | none, _ => false
  | _, none => false

/-- Step 6 of 60_exceptions.md R202. -/
def remrFailure (s : State) : Option Cause :=
  if s.A = none then some .unwrittenOperand
  else if s.B = none then some .unwrittenOperand
  else if atLeast (2 ^ 64) s.B = true then some .operandRange
  else if s.B = some 0 then some .divisorZero
  else if quotientTooWide s.A s.B = true then some .dividendRange
  else none

/-- Steps 3 to 6 of 60_exceptions.md R202: the first check that fails, if one does, for a command that is ready. -/
def operandFailure (i : Instr) (s : State) : Option Cause :=
  if rootCommand i = true ∧ s.cfg.M % 4 ≠ 3 then some .unsupportedModulus
  else if fieldCommand i = true then fieldFailure i s
  else if i = .remr then remrFailure s
  else byteFailure (byteLength s.cfg i) s

/-- The effect `R <- v; V <- 1`, for a `v` of at most `W` bits (00_scope.md R9, R11). -/
abbrev State.present (s : State) (v : Nat) : State :=
  { s with R := some (BitVec.ofNat 64 v), V := some true }

/-- The effect `R <- DRAW_W; V <- 0` (00_scope.md R11): the next free value is in `R`. -/
abbrev State.absent (s : State) : State :=
  { s with R := some (BitVec.ofNat 64 ((Config.draw s.draws).toNat % 2 ^ s.cfg.W)), V := some false,
           draws := s.draws + 1 }

/-- The fields of the command's word are those the spec gives it (30_encoding.md R81 to R85). -/
def HasFields (i : Instr) (opc : BitVec 8) (env : Bool) : Prop :=
  opcOf (encode i) = opc ∧ envOf (encode i) = env ∧ wselOf (encode i) = wselCode i.width ∧ reservedOf (encode i) = 0

/-- The faults of a command issued outside the fault state: the common checks of 60_exceptions.md R202, in their order;
the operand checks of steps 3 to 6 speak of a ready command. -/
def FaultsInOrder (i : Instr) (s : State) : Prop :=
  (configOk s.cfg = false → exec i s = .next (s.raise .configInvalid (encode i))) ∧
  (configOk s.cfg = true → ¬ WellFormed s.cfg.W i → exec i s = .next (s.raise .illegalCommand (encode i))) ∧
  (s.Ready i → ∀ c, operandFailure i s = some c → exec i s = .next (s.raise c (encode i)))

/-- What is in `R` after the command `i`, run from `s` with `a` in `A` and `b` in `B`. -/
def resultOf (i : Instr) (s : State) (a b : Nat) : Option Nat :=
  match exec i { s with A := some (BitVec.ofNat 128 a), B := some (BitVec.ofNat 128 b) } with
  | .next t => t.R.map BitVec.toNat
  | .fault _ | .refused _ => none

end Sys2Proof.Machine
end

