-- ==== Sys2Proof/Certificates/Slice0/Obligations.lean ====
section
/-! DEFINITION. The statements for the provers, from the numbered rules of spec/. -/

open Sys2Proof Sys2Proof.Machine

/-! ## Reset, the host's actions, and the step -/

/-- 10_state.md R48: the state after reset, for the instance built with any parameters. -/
def Obligations.ResetLeavesEverythingUnwritten : Prop :=
  ∀ c : Config, (State.resetOf c).cfg = c ∧ (State.resetOf c).A = none ∧ (State.resetOf c).B = none ∧
    (State.resetOf c).R = none ∧ (State.resetOf c).V = none ∧
    (∀ i < 64, Memory.read (State.resetOf c).BUF i = none) ∧ (State.resetOf c).BLEN = none ∧
    (State.resetOf c).STATUS = 0 ∧ (State.resetOf c).FCMD = 0

/-- The invariant holds after reset, whatever the instance. -/
def Obligations.ResetMeetsTheInvariant : Prop :=
  ∀ c : Config, (State.resetOf c).Inv

/-- Every step keeps the invariant: `BUF` canonical (10_state.md R30), a written `R` of at most `W` bits (R28), `V`
written whenever `R` is (R36), and a `STATUS` word that is zero with `FCMD` zero or that of one of the eight causes
(R32, R41). -/
def Obligations.EveryStepKeepsTheInvariant : Prop :=
  ∀ s t : State, s.Inv → step s = .next t → t.Inv

/-- A step runs the decoded command (30_encoding.md R80): when the host's next action issues a word that decodes, the
step is `exec` of the command in the state with that action taken off the host's list. -/
def Obligations.StepRunsTheDecodedCommand : Prop :=
  ∀ (s : State) (w : CmdWord) (rest : List HostAction) (i : Instr),
    s.host = .issue w :: rest → decode w = .ok i → step s = exec i { s with host := rest }

/-- 60_exceptions.md R217: with no action pending the MFC holds all its registers. -/
def Obligations.IdleStepHoldsAllRegisters : Prop :=
  ∀ s : State, s.host = [] → step s = .next s

/-- 10_state.md R35, in the fault state too (95_test_vectors.md P4 step 3): the host's writes to `A`, `B`, `BUF[i]` and `BLEN` store the value, those to the other registers
have no effect, and a read gives the host the register's value and changes no register. -/
def Obligations.HostAccessesStoreAndReadBack : Prop :=
  ∀ (s : State) (rest : List HostAction),
    (∀ v, s.host = .wrA v :: rest → step s = .next { s with host := rest, A := some v }) ∧
    (∀ v, s.host = .wrB v :: rest → step s = .next { s with host := rest, B := some v }) ∧
    (∀ i b, s.host = .wrBuf i b :: rest → ∃ m : Memory, step s = .next { s with host := rest, BUF := m } ∧
      ∀ k, Memory.read m k = if k = i.val then some b else Memory.read s.BUF k) ∧
    (∀ n, s.host = .wrBlen n :: rest → step s = .next { s with host := rest, BLEN := some n }) ∧
    (∀ r n, s.host = .wrReadOnly r n :: rest → step s = .next { s with host := rest }) ∧
    (∀ r, s.host = .rd r :: rest → step s = .next { s with host := rest, readBack := hostRead s r })

/-- 10_state.md R38: a host read of an unwritten register is refused; of a written one it gives the value (R35). -/
def Obligations.HostReadIsRefusedExactlyWhenUnwritten : Prop :=
  ∀ s : State,
    (hostRead s .A = match s.A with | none => .refused | some v => .number v.toNat) ∧
    (hostRead s .B = match s.B with | none => .refused | some v => .number v.toNat) ∧
    (hostRead s (.ro .R) = match s.R with | none => .refused | some v => .number v.toNat) ∧
    (hostRead s (.ro .V) = match s.V with | none => .refused | some v => .number v.toNat) ∧
    (∀ i : Fin 64, hostRead s (.BUF i) =
      match Memory.read s.BUF i.val with | none => .refused | some b => .number b.toNat) ∧
    (hostRead s .BLEN = match s.BLEN with | none => .refused | some n => .number n.toNat)

/-- `MOV A, R` and `MOV B, R` (30_encoding.md R90) copy a written `R`; from an unwritten `R` nothing is copied (the
model's choice, log entry 7). -/
def Obligations.MoveCopiesTheResult : Prop :=
  ∀ (s : State) (rest : List HostAction),
    (∀ r, s.R = some r → s.host = .movA :: rest → step s = .next { s with host := rest, A := some (r.setWidth 128) }) ∧
    (∀ r, s.R = some r → s.host = .movB :: rest → step s = .next { s with host := rest, B := some (r.setWidth 128) }) ∧
    (s.R = none → s.host = .movA :: rest ∨ s.host = .movB :: rest → step s = .next { s with host := rest })

/-- 70_reset_and_hazards.md R230, R231: reset takes the reset state with the configuration unchanged, and a command
issued in the same instant is lost. The host's own fields and the free stream's index go on (the model's, log entries
4 and 5). -/
def Obligations.HostResetTakesTheResetState : Prop :=
  ∀ (s : State) (lost : Option CmdWord) (rest : List HostAction), s.host = .reset lost :: rest →
    step s = .next { State.resetOf s.cfg with host := rest, readBack := s.readBack, draws := s.draws }

/-- `STATUS` as the host reads it (10_state.md R32) in a state of the invariant: `FAULTED` in bit 0, zeros in bits 7 to
1, `CAUSE` above, which is one of the eight codes of 60_exceptions.md R201 in the fault state and 0 outside it. `FCMD`
as the host reads it (10_state.md R41), in every state. -/
def Obligations.StatusReadsFaultedAndCause : Prop :=
  (∀ s : State, s.Inv → ∃ n, hostRead s (.ro .STATUS) = .number n ∧ n % 256 = (if s.faulted then 1 else 0) ∧
    n / 256 = s.cause.toNat ∧ s.cause.toNat ≤ 8 ∧ (s.faulted = true ↔ s.cause.toNat ≠ 0)) ∧
  (∀ s : State, hostRead s (.ro .FCMD) = .number s.FCMD.toNat) ∧
  (∀ (s : State) (w : CmdWord), (s.raise .illegalCommand w).cause = 1 ∧ (s.raise .unwrittenOperand w).cause = 2 ∧
    (s.raise .operandRange w).cause = 3 ∧ (s.raise .lengthMismatch w).cause = 4 ∧
    (s.raise .configInvalid w).cause = 5 ∧ (s.raise .unsupportedModulus w).cause = 6 ∧
    (s.raise .divisorZero w).cause = 7 ∧ (s.raise .dividendRange w).cause = 8)

/-- `WRBUF` (30_encoding.md R90) as the host accesses it stands for (the model's reading, log entry 21): after them
`BUF[0..n-1]` holds the bytes, `BLEN` is `n`, and nothing else has changed. A sequence longer than `BUF` has none. -/
def Obligations.WrbufWritesTheSequence : Prop :=
  ∀ bs : List Byte,
    (bs.length ≤ 64 → ∃ acts, wrbuf bs = some acts ∧ (∀ w, HostAction.issue w ∉ acts) ∧
      ∀ s : State, ∃ m : Memory,
        acts.foldl hostEffect s = { s with BUF := m, BLEN := some (BitVec.ofNat 8 bs.length) } ∧
        (∀ k < bs.length, Memory.read m k = bs[k]?) ∧
        (∀ k, bs.length ≤ k → Memory.read m k = Memory.read s.BUF k)) ∧
    (64 < bs.length → wrbuf bs = none)

/-! ## Configuration and published constants -/

/-- 10_state.md R22: `CFG_W` and, where it is a `W`-bit value, `CFG_M` hold `W` and `M`, and no step, of a command or of the host, changes the
configuration. -/
def Obligations.NoStepChangesTheConfiguration : Prop :=
  (∀ s t : State, step s = .next t → t.cfg = s.cfg) ∧
  (∀ s : State, hostRead s (.ro .CFG_W) = .number s.cfg.W ∧
    (s.cfg.M < 2 ^ s.cfg.W → hostRead s (.ro .CFG_M) = .number s.cfg.M))

/-- 10_state.md R23, 60_exceptions.md R203, 70_reset_and_hazards.md R231: `CONFIG_OK` and what the host reads of it (1 or
0), and CONFIG_INVALID on every command of an instance without it, again after a reset, which leaves the configuration as it was. -/
def Obligations.InvalidConfigurationFaultsOnEveryCommand : Prop :=
  (∀ c : Config, configOk c = true ↔ (c.W = 16 ∨ c.W = 32 ∨ c.W = 64) ∧ 2 ≤ c.M ∧ c.M ≤ 2 ^ c.W - 1) ∧
  (∀ s : State, hostRead s (.ro .CONFIG_OK) = .number (if (s.cfg.W = 16 ∨ s.cfg.W = 32 ∨ s.cfg.W = 64) ∧
    2 ≤ s.cfg.M ∧ s.cfg.M ≤ 2 ^ s.cfg.W - 1 then 1 else 0)) ∧
  (∀ (s : State) (w : CmdWord) (rest : List HostAction), configOk s.cfg = false → s.faulted = false →
    s.host = .issue w :: rest → step s = .next (State.raise { s with host := rest } .configInvalid w)) ∧
  (∀ (s : State) (lost : Option CmdWord) (w : CmdWord) (rest : List HostAction), configOk s.cfg = false →
    s.host = .reset lost :: .issue w :: rest →
    ∃ t, step s = .next t ∧ t.cfg = s.cfg ∧ step t = .next (State.raise { t with host := rest } .configInvalid w))

/-- 10_state.md R24: the reciprocal record of a 64-bit instance whose `M` is a nonzero 64-bit number, `CONFIG_OK` or not,
and its values for `MFC64`. -/
def Obligations.ReciprocalRecordValues : Prop :=
  ∀ s : State, s.cfg.W = 64 → 1 ≤ s.cfg.M → s.cfg.M < 2 ^ 64 → ∃ shift dnorm recip : ℕ,
    hostRead s (.ro .CFG_SHIFT) = .number shift ∧ hostRead s (.ro .CFG_DNORM) = .number dnorm ∧
    hostRead s (.ro .CFG_RECIP) = .number recip ∧
    shift ≤ 63 ∧ dnorm = s.cfg.M * 2 ^ shift ∧ 2 ^ 63 ≤ dnorm ∧ dnorm < 2 ^ 64 ∧
    recip < 2 ^ 64 ∧ 2 ^ 64 + recip = (2 ^ 128 - 1) / dnorm ∧
    (s.cfg.M = 0xfffffffffffffc7f → shift = 0 ∧ dnorm = 0xfffffffffffffc7f ∧ recip = 0x381)

/-- An instance of another width than 64 has no reciprocal record (10_state.md R24); that a host read of one of its
registers is then refused is the model's reading (DEDUCED, log entry 11). -/
def Obligations.AbsentRecordReadsAreRefused : Prop :=
  ∀ s : State, s.cfg.W ≠ 64 → hostRead s (.ro .CFG_SHIFT) = .refused ∧ hostRead s (.ro .CFG_DNORM) = .refused ∧
    hostRead s (.ro .CFG_RECIP) = .refused

/-- 10_state.md R25, the constants by their defining properties, each wherever its definition gives a value its register
can hold, `CONFIG_OK` or not. Elsewhere the register holds a free value of its width (the model's choice, log entry 11):
so for the two-inverse of an even `M`. The model's choices too are the clauses on `GENERATOR`, the root and `DELTA` for a
`GENERATOR` outside its legal values (log entry 22), the root and its inverse for a composite `M` with `S = 1` (log entry
23), and the two-inverse 1 of `M = 1` (log entry 11). -/
def Obligations.PublishedConstantsHaveTheirProperties : Prop :=
  ∀ s : State,
    hostRead s (.ro .CONST_ZERO) = .number 0 ∧ (1 ≤ s.cfg.W → hostRead s (.ro .CONST_ONE) = .number 1) ∧
    hostRead s (.ro .CONST_MODULUS_STR) = .text s.cfg.MODULUS_STR ∧
    (s.cfg.GENERATOR < 2 ^ s.cfg.W → hostRead s (.ro .CONST_GENERATOR) = .number s.cfg.GENERATOR) ∧
    (1 ≤ s.cfg.M → s.cfg.M < 2 ^ 255 → ∃ n, hostRead s (.ro .CONST_NUM_BITS) = .number n ∧ 2 ^ (n - 1) ≤ s.cfg.M ∧
      s.cfg.M < 2 ^ n ∧ hostRead s (.ro .CONST_CAPACITY) = .number (n - 1)) ∧
    (s.cfg.M % 2 = 1 → (s.cfg.M + 1) / 2 < 2 ^ s.cfg.W →
      hostRead s (.ro .CONST_TWO_INV) = .number ((s.cfg.M + 1) / 2) ∧
      (2 ≤ s.cfg.M → (s.cfg.M + 1) / 2 < s.cfg.M ∧ 2 * ((s.cfg.M + 1) / 2) % s.cfg.M = 1)) ∧
    (∃ t, hostRead s (.ro .CONST_TWO_INV) = .number t ∧ t < 2 ^ s.cfg.W) ∧
    (2 ≤ s.cfg.M → s.cfg.M ≤ 2 ^ s.cfg.W → s.cfg.W < 256 →
      ∃ S root, hostRead s (.ro .CONST_S) = .number S ∧ 2 ^ S ∣ s.cfg.M - 1 ∧ ¬ 2 ^ (S + 1) ∣ s.cfg.M - 1 ∧
      (s.cfg.M % 4 = 3 → S = 1) ∧
      hostRead s (.ro .CONST_ROOT_OF_UNITY) = .number root ∧
      root = s.cfg.GENERATOR ^ ((s.cfg.M - 1) / 2 ^ S) % s.cfg.M ∧
      (root.Coprime s.cfg.M → ∃ v, hostRead s (.ro .CONST_ROOT_OF_UNITY_INV) = .number v ∧ v < s.cfg.M ∧
        root * v % s.cfg.M = 1) ∧
      hostRead s (.ro .CONST_DELTA) = .number (s.cfg.GENERATOR ^ 2 ^ S % s.cfg.M))

/-- 10_state.md R25: for a prime `M ≡ 3 (mod 4)` and any generator of its multiplicative group, the root of unity and
its inverse are `M - 1`. -/
def Obligations.RootOfUnityIsMinusOne : Prop :=
  ∀ s : State, configOk s.cfg = true → s.cfg.M.Prime → s.cfg.M % 4 = 3 →
    (∀ x, 0 < x → x < s.cfg.M → ∃ k, s.cfg.GENERATOR ^ k % s.cfg.M = x) →
    hostRead s (.ro .CONST_ROOT_OF_UNITY) = .number (s.cfg.M - 1) ∧
    hostRead s (.ro .CONST_ROOT_OF_UNITY_INV) = .number (s.cfg.M - 1)

/-! ## Command words -/

/-- The decoder and the encoder are inverse to each other on all words and all commands: no bit of a word is dropped,
and each command has exactly one word (30_encoding.md R80 to R85). -/
def Obligations.DecodeAndEncodeAgree : Prop :=
  (∀ i : Instr, decode (encode i) = .ok i) ∧ (∀ (w : CmdWord) (i : Instr), decode w = .ok i → encode i = w)

/-- 30_encoding.md R87 and 60_exceptions.md R204: the classification, line for line, is the decoder's verdict together
with the width test; issuing an illegal word faults with ILLEGAL_COMMAND, issuing a legal one performs its command. -/
def Obligations.IllegalWordsAreThoseClassified : Prop :=
  ∀ (s : State) (w : CmdWord) (rest : List HostAction), configOk s.cfg = true →
    (legalOn s.cfg.W w = true ↔ ∃ i, decode w = .ok i ∧ WellFormed s.cfg.W i) ∧
    (s.faulted = false → s.host = .issue w :: rest → legalOn s.cfg.W w = false →
      step s = .next (State.raise { s with host := rest } .illegalCommand w)) ∧
    (s.host = .issue w :: rest → legalOn s.cfg.W w = true →
      ∃ i, encode i = w ∧ WellFormed s.cfg.W i ∧ step s = exec i { s with host := rest })

/-- 30_encoding.md R88: 17 legal words for `W = 64`, 16 for `W = 16` and `W = 32`. -/
def Obligations.LegalWordCounts : Prop :=
  (∃ l : List CmdWord, l.Nodup ∧ l.length = 17 ∧ ∀ w, w ∈ l ↔ legalOn 64 w = true) ∧
  (∃ l : List CmdWord, l.Nodup ∧ l.length = 16 ∧ ∀ w, w ∈ l ↔ legalOn 32 w = true) ∧
  (∃ l : List CmdWord, l.Nodup ∧ l.length = 16 ∧ ∀ w, w ∈ l ↔ legalOn 16 w = true)

/-- Words of 95_test_vectors.md, and what they stand for: one or more of each family. -/
def Obligations.SampleWordsDecode : Prop :=
  decode 0x00000001 = .ok (.add .w16) ∧ decode 0x00000102 = .ok (.sub .w32) ∧ decode 0x00000203 = .ok (.neg .w64) ∧
  decode 0x00000205 = .ok (.mul .w64) ∧ decode 0x00000007 = .ok (.redw .w16) ∧ decode 0x0000020F = .ok .remr ∧
  decode 0x00000009 = .ok (.inv .w16) ∧ decode 0x0000010A = .ok (.sqrt .w32) ∧ decode 0x0000040C = .ok (.encEnv .w16) ∧
  decode 0x0000040D = .ok (.decEnv .w16) ∧ decode 0x0000000E = .ok (.isodd .w16) ∧
  decode 0x00000000 = .error .opcode ∧ decode 0x00000301 = .error .wsel ∧ decode 0x00000801 = .error .reserved ∧
  decode 0x0000040E = .error .env ∧ decode 0x0000000F = .error .remrWidth

/-! ## Faults and outcomes -/

/-- 60_exceptions.md R202: the checks on an issued word in their order; the first that fails raises its fault, and a
command whose checks all pass is performed without one. -/
def Obligations.CommonChecksFaultInOrder : Prop :=
  ∀ (s : State) (w : CmdWord) (rest : List HostAction), s.host = .issue w :: rest → s.faulted = false →
    LegalLengths s.cfg →
    (configOk s.cfg = false → step s = .next (State.raise { s with host := rest } .configInvalid w)) ∧
    (configOk s.cfg = true → legalOn s.cfg.W w = false →
      step s = .next (State.raise { s with host := rest } .illegalCommand w)) ∧
    (∀ i, decode w = .ok i → s.Ready i →
      (∀ c, operandFailure i s = some c → step s = .next (State.raise { s with host := rest } c w)) ∧
      (operandFailure i s = none → ∃ t, exec i { s with host := rest } = .next t ∧ step s = .next t ∧
        t.STATUS = s.STATUS ∧ t.FCMD = s.FCMD ∧ t.V ≠ none))

/-- 60_exceptions.md R205: fault entry sets `FAULTED`, writes the cause and the issued word, and nothing else. -/
def Obligations.FaultEntryWritesOnlyStatusAndFcmd : Prop :=
  ∀ (s t : State) (w : CmdWord) (rest : List HostAction), s.host = .issue w :: rest → s.faulted = false →
    step s = .next t → t.faulted = true →
    ∃ c : Cause, t = { s with host := rest, STATUS := c.code ++ (0 : BitVec 7) ++ (1 : BitVec 1), FCMD := w }

/-- 60_exceptions.md R206: in the fault state an issued command is not performed and no register changes; the host may
still read every register. -/
def Obligations.FaultStatePerformsNoCommand : Prop :=
  (∀ (i : Instr) (s : State), s.faulted = true → exec i s = .next s) ∧
  (∀ (s : State) (w : CmdWord) (rest : List HostAction), s.faulted = true → s.host = .issue w :: rest →
    step s = .next { s with host := rest }) ∧
  (∀ (s : State) (r : HostReg) (rest : List HostAction), s.faulted = true → s.host = .rd r :: rest →
    step s = .next { s with host := rest, readBack := hostRead s r })

/-- 60_exceptions.md R207: only reset clears `FAULTED`; every other step keeps `STATUS` and `FCMD`. -/
def Obligations.OnlyResetLeavesTheFaultState : Prop :=
  ∀ s t : State, s.faulted = true → step s = .next t →
    (t.faulted = true ∧ t.STATUS = s.STATUS ∧ t.FCMD = s.FCMD ∧ ¬ ∃ lost rest, s.host = .reset lost :: rest) ∨
    (t.faulted = false ∧ ∃ lost rest, s.host = .reset lost :: rest)

/-- 60_exceptions.md R200: a command not issued in the fault state ends as a result (its write set written, `V = 1`), a
soft outcome (`V = 0`, `R` a drawn value, `STATUS` unchanged) or a fault (nothing but `STATUS` and `FCMD` written), and
as one of them only. -/
def Obligations.EveryCommandHasOneOfThreeOutcomes : Prop :=
  ∀ (i : Instr) (s t : State), s.faulted = false → exec i s = .next t →
    (t.V = some true ∧ t.faulted = false ∧
      (encodeCommand i = false → t.R ≠ none ∧ t = { s with R := t.R, V := t.V, draws := t.draws }) ∧
      (encodeCommand i = true → t.BLEN ≠ none ∧ t = { s with BUF := t.BUF, BLEN := t.BLEN, V := t.V })) ∨
    (t.V = some false ∧ t.faulted = false ∧ softCommand i = true ∧
      t = { s with R := t.R, V := t.V, draws := t.draws } ∧
      ∃ n, s.draws ≤ n ∧ n < t.draws ∧ t.R = some (BitVec.ofNat 64 ((Config.draw n).toNat % 2 ^ s.cfg.W))) ∨
    (t.faulted = true ∧ t = { s with STATUS := t.STATUS, FCMD := encode i })

/-- The frame of every command (10_state.md R36, "writes"): `A`, `B` and the configuration are never written, `BUF` and
`BLEN` only by ENC and ENC.ENV, which leave `R` and every cell from their length up unchanged. -/
def Obligations.CommandsWriteOnlyTheirWriteSets : Prop :=
  ∀ (i : Instr) (s t : State), exec i s = .next t →
    t.cfg = s.cfg ∧ t.A = s.A ∧ t.B = s.B ∧ t.host = s.host ∧ t.readBack = s.readBack ∧
    (encodeCommand i = false → t.BUF = s.BUF ∧ t.BLEN = s.BLEN) ∧
    (encodeCommand i = true → t.R = s.R ∧ t.draws = s.draws) ∧
    (softCommand i = false → t.draws = s.draws) ∧
    (∀ w k, i = .enc w → s.cfg.NB ≤ k → Memory.read t.BUF k = Memory.read s.BUF k) ∧
    (∀ w k, i = .encEnv w → s.cfg.ENV_BYTES ≤ k → Memory.read t.BUF k = Memory.read s.BUF k) ∧
    ((t.STATUS = s.STATUS ∧ t.FCMD = s.FCMD) ∨
      (s.faulted = false ∧ ∃ c, t = { s with STATUS := statusOf c, FCMD := encode i }))

/-- A command depends on nothing but the registers it reads (10_state.md R36, "reads": of `BUF` the cells below
its length), the configuration and the fault state: two states that agree on those go on alike, and what one writes the other writes too. -/
def Obligations.CommandsReadOnlyTheirOperands : Prop :=
  ∀ (i : Instr) (s s' t : State), s'.cfg = s.cfg → s'.STATUS = s.STATUS → s'.FCMD = s.FCMD → s'.draws = s.draws →
    (fieldCommand i = true ∨ i = .remr → s'.A = s.A) →
    (binaryField i = true ∨ i = .remr → s'.B = s.B) →
    (fieldCommand i = false ∧ i ≠ .remr → s'.BLEN = s.BLEN) →
    (∀ k < byteLength s.cfg i, Memory.read s'.BUF k = Memory.read s.BUF k) →
    exec i s = .next t →
    ∃ t', exec i s' = .next t' ∧ t'.STATUS = t.STATUS ∧ t'.FCMD = t.FCMD ∧ t'.draws = t.draws ∧
      ((t'.R = t.R ∧ t'.V = t.V) ∨ (t.R = s.R ∧ t'.R = s'.R ∧ (t'.V = t.V ∨ (t.V = s.V ∧ t'.V = s'.V)))) ∧
      ((t'.BLEN = t.BLEN ∧ ∀ k, Memory.read t'.BUF k = Memory.read t.BUF k ∨
          (Memory.read t.BUF k = Memory.read s.BUF k ∧ Memory.read t'.BUF k = Memory.read s'.BUF k)) ∨
        (t.BLEN = s.BLEN ∧ t.BUF = s.BUF ∧ t'.BLEN = s'.BLEN ∧ t'.BUF = s'.BUF))

/-- A result that is present is reduced (40_add_sub_neg.md R106, 41_mul_reduce.md R135): `R < M`, but for REMR, whose
result is below its divisor. ENC writes no `R`. -/
def Obligations.PresentResultsAreReduced : Prop :=
  ∀ (i : Instr) (s t : State), s.Ready i → exec i s = .next t → t.faulted = false → t.V = some true →
    encodeCommand i = false →
    ∃ r, t.R = some r ∧ ((i ≠ .remr → r.toNat < s.cfg.M) ∧ (i = .remr → ∃ m, s.B = some m ∧ r.toNat < m.toNat))

/-- 10_state.md R40: a field-element command whose operands are written, on a modulus it supports, faults with
OPERAND_RANGE unless every operand is below `M`; if every one is, it does not fault. -/
def Obligations.OperandsOutOfRangeFault : Prop :=
  ∀ (i : Instr) (s : State) (a b : BitVec 128), fieldCommand i = true → s.Ready i → LegalLengths s.cfg →
    (rootCommand i = true → s.cfg.M % 4 = 3) → s.A = some a → (binaryField i = true → s.B = some b) →
    (s.cfg.M ≤ a.toNat ∨ (binaryField i = true ∧ s.cfg.M ≤ b.toNat) →
      exec i s = .next (s.raise .operandRange (encode i))) ∧
    (a.toNat < s.cfg.M → (binaryField i = true → b.toNat < s.cfg.M) →
      ∃ t, exec i s = .next t ∧ t.STATUS = s.STATUS)

/-- 10_state.md R38, the commands' part: an unwritten operand faults with UNWRITTEN_OPERAND. For a byte command an
unwritten cell is looked for once `BLEN` has the right length. -/
def Obligations.UnwrittenOperandsFault : Prop :=
  ∀ (i : Instr) (s : State), s.Ready i → LegalLengths s.cfg → (rootCommand i = true → s.cfg.M % 4 = 3) →
    ((fieldCommand i = true ∨ i = .remr) ∧ s.A = none) ∨ ((binaryField i = true ∨ i = .remr) ∧ s.B = none) ∨
      ((fieldCommand i = false ∧ i ≠ .remr) ∧ (s.BLEN = none ∨
        (s.BLEN.map BitVec.toNat = some (byteLength s.cfg i) ∧ ∃ k < byteLength s.cfg i, Memory.read s.BUF k = none))) →
    exec i s = .next (s.raise .unwrittenOperand (encode i))

/-- 42_inv_sqrt.md R163: SQRT and SQRTR fault on a modulus that is not 3 modulo 4, whatever their operands. -/
def Obligations.RootsFaultOnUnsupportedModulus : Prop :=
  ∀ (i : Instr) (s : State), rootCommand i = true → s.Ready i → s.cfg.M % 4 ≠ 3 →
    exec i s = .next (s.raise .unsupportedModulus (encode i))

/-- The model's one stop (log entry 9): on an instance whose byte-length parameter is outside the legal values of
00_scope.md R6, the commands that use it stop under its name; every other command, and these when they are not ready or
when the length they use is legal, answer a next state. -/
def Obligations.IllegalLengthParametersStop : Prop :=
  ∀ (i : Instr) (s : State),
    (s.Ready i → (∃ w, i = .redw w ∨ i = .rednz w) → lengthOk s.cfg s.cfg.RED_BYTES = false →
      exec i s = .fault .lengthParameter) ∧
    (s.Ready i → (∃ w, i = .encEnv w ∨ i = .decEnv w) → lengthOk s.cfg s.cfg.ENV_BYTES = false →
      exec i s = .fault .lengthParameter) ∧
    (¬ s.Ready i ∨ ((∃ w, i = .redw w ∨ i = .rednz w) → lengthOk s.cfg s.cfg.RED_BYTES = true) ∧
        ((∃ w, i = .encEnv w ∨ i = .decEnv w) → lengthOk s.cfg s.cfg.ENV_BYTES = true) →
      ∃ t, exec i s = .next t)

/-! ## ADD, DBL, SUB, NEG -/

/-- 40_add_sub_neg.md R101. -/
def Obligations.AddGivesTheSumModM : Prop :=
  ∀ (w : Width) (s : State), s.faulted = false →
    HasFields (.add w) 0x01 false ∧ FaultsInOrder (.add w) s ∧
    (s.Ready (.add w) → ∀ a b, s.A = some a → s.B = some b → a.toNat < s.cfg.M → b.toNat < s.cfg.M →
      exec (.add w) s = .next (s.present ((a.toNat + b.toNat) % s.cfg.M)))

/-- 40_add_sub_neg.md R102: `B` is not read. -/
def Obligations.DblGivesTwiceTheOperandModM : Prop :=
  ∀ (w : Width) (s : State), s.faulted = false →
    HasFields (.dbl w) 0x04 false ∧ FaultsInOrder (.dbl w) s ∧
    (s.Ready (.dbl w) → ∀ a, s.A = some a → a.toNat < s.cfg.M →
      exec (.dbl w) s = .next (s.present (2 * a.toNat % s.cfg.M)))

/-- 40_add_sub_neg.md R103: the difference is that of integers, with a non-negative remainder. -/
def Obligations.SubGivesTheDifferenceModM : Prop :=
  ∀ (w : Width) (s : State), s.faulted = false →
    HasFields (.sub w) 0x02 false ∧ FaultsInOrder (.sub w) s ∧
    (s.Ready (.sub w) → ∀ a b, s.A = some a → s.B = some b → a.toNat < s.cfg.M → b.toNat < s.cfg.M →
      exec (.sub w) s = .next (s.present ((((a.toNat : ℤ) - b.toNat) % s.cfg.M).toNat)))

/-- 40_add_sub_neg.md R104: `-0` is `0`, never `M`. -/
def Obligations.NegGivesTheNegativeModM : Prop :=
  ∀ (w : Width) (s : State), s.faulted = false →
    HasFields (.neg w) 0x03 false ∧ FaultsInOrder (.neg w) s ∧
    (s.Ready (.neg w) → ∀ a, s.A = some a → a.toNat < s.cfg.M →
      exec (.neg w) s = .next (s.present (if a.toNat = 0 then 0 else s.cfg.M - a.toNat)))

/-- 40_add_sub_neg.md R105: `x + 0 = x` and `x + (-x) = 0`, through NEG and a host copy of its result. -/
def Obligations.AdditionHasNeutralAndInverse : Prop :=
  ∀ (w : Width) (s : State) (x : ℕ), s.Ready (.add w) → x < s.cfg.M →
    resultOf (.add w) s x 0 = some x ∧
    ∃ y, resultOf (.neg w) s x 0 = some y ∧ resultOf (.add w) s x y = some 0

/-! ## MUL, SQR, REDW, REDNZ, REMR -/

/-- 41_mul_reduce.md R120. -/
def Obligations.MulGivesTheProductModM : Prop :=
  ∀ (w : Width) (s : State), s.faulted = false →
    HasFields (.mul w) 0x05 false ∧ FaultsInOrder (.mul w) s ∧
    (s.Ready (.mul w) → ∀ a b, s.A = some a → s.B = some b → a.toNat < s.cfg.M → b.toNat < s.cfg.M →
      exec (.mul w) s = .next (s.present (a.toNat * b.toNat % s.cfg.M)))

/-- 41_mul_reduce.md R121: `B` is not read. -/
def Obligations.SqrGivesTheSquareModM : Prop :=
  ∀ (w : Width) (s : State), s.faulted = false →
    HasFields (.sqr w) 0x06 false ∧ FaultsInOrder (.sqr w) s ∧
    (s.Ready (.sqr w) → ∀ a, s.A = some a → a.toNat < s.cfg.M →
      exec (.sqr w) s = .next (s.present (a.toNat * a.toNat % s.cfg.M)))

/-- 41_mul_reduce.md R125: for every width the reducer gives the exact remainder of every dividend whose high word is
below the modulus; at 64 bits through the reciprocal record and the corrections of R124 and R127. -/
def Obligations.ReductionIsExact : Prop :=
  ∀ (c : Config) (p : ℕ), configOk c = true → p / 2 ^ c.W < c.M → reduceWide c p = p % c.M

/-- 41_mul_reduce.md R128: the exact remainder of the big-endian operand, its high word reduced or not. -/
def Obligations.RedwGivesTheRemainder : Prop :=
  ∀ (w : Width) (s : State), s.faulted = false → lengthOk s.cfg s.cfg.RED_BYTES = true →
    HasFields (.redw w) 0x07 false ∧ FaultsInOrder (.redw w) s ∧
    (s.Ready (.redw w) →
      ∀ (n : BitVec 8) (bs : List Byte), s.BLEN = some n → n.toNat = s.cfg.RED_BYTES → bs.length = s.cfg.RED_BYTES →
      Holds s.BUF bs → exec (.redw w) s = .next (s.present (beValue bs % s.cfg.M)))

/-- 41_mul_reduce.md R129: into `[1, M)`. -/
def Obligations.RednzGivesTheNonzeroRemainder : Prop :=
  ∀ (w : Width) (s : State), s.faulted = false → lengthOk s.cfg s.cfg.RED_BYTES = true →
    HasFields (.rednz w) 0x08 false ∧ FaultsInOrder (.rednz w) s ∧
    (s.Ready (.rednz w) →
      ∀ (n : BitVec 8) (bs : List Byte), s.BLEN = some n → n.toNat = s.cfg.RED_BYTES → bs.length = s.cfg.RED_BYTES →
      Holds s.BUF bs → exec (.rednz w) s = .next (s.present (beValue bs % (s.cfg.M - 1) + 1)) ∧
        1 ≤ beValue bs % (s.cfg.M - 1) + 1 ∧ beValue bs % (s.cfg.M - 1) + 1 < s.cfg.M)

/-- 41_mul_reduce.md R133: REMR is exact for every 128-bit dividend whose high word is below the 64-bit divisor. -/
def Obligations.RemrGivesTheRemainder : Prop :=
  ∀ s : State, s.faulted = false →
    HasFields .remr 0x0F false ∧ FaultsInOrder .remr s ∧
    (s.Ready .remr →
      ∀ x m, s.A = some x → s.B = some m → 0 < m.toNat → m.toNat < 2 ^ 64 → x.toNat / 2 ^ 64 < m.toNat →
      exec .remr s = .next (s.present (x.toNat % m.toNat)))

/-- 41_mul_reduce.md R134: distributivity over ADD and commutativity of MUL, and for a prime `M` the product of a
nonzero element and its INV result is 1. -/
def Obligations.MultiplicationDistributesOverAddition : Prop :=
  ∀ (w : Width) (s : State) (x y z : ℕ), s.Ready (.mul w) → x < s.cfg.M → y < s.cfg.M → z < s.cfg.M →
    (∃ yz xy xz p, resultOf (.add w) s y z = some yz ∧ resultOf (.mul w) s x yz = some p ∧
      resultOf (.mul w) s x y = some xy ∧ resultOf (.mul w) s x z = some xz ∧ resultOf (.add w) s xy xz = some p) ∧
    resultOf (.mul w) s x y = resultOf (.mul w) s y x ∧
    (s.cfg.M.Prime → x ≠ 0 → ∃ i, resultOf (.inv w) s x 0 = some i ∧ resultOf (.mul w) s x i = some 1)

/-! ## INV, SQRT, SQRTR -/

/-- 42_inv_sqrt.md R150: the inverse where there is one, otherwise the soft outcome. -/
def Obligations.InvGivesTheInverseOrNone : Prop :=
  ∀ (w : Width) (s : State), s.faulted = false →
    HasFields (.inv w) 0x09 false ∧ FaultsInOrder (.inv w) s ∧
    (s.Ready (.inv w) → ∀ a, s.A = some a → a.toNat < s.cfg.M →
      (a.toNat.Coprime s.cfg.M → ∃ r, r < s.cfg.M ∧ a.toNat * r % s.cfg.M = 1 ∧
        exec (.inv w) s = .next (s.present r)) ∧
      (¬ a.toNat.Coprime s.cfg.M → exec (.inv w) s = .next s.absent))

/-- 42_inv_sqrt.md R152: on a prime modulus INV is Fermat's power, and only 0 has no inverse. -/
def Obligations.InverseIsFermatsPower : Prop :=
  ∀ (w : Width) (s : State) (a : BitVec 128), s.Ready (.inv w) → s.cfg.M.Prime → s.A = some a → a.toNat < s.cfg.M →
    (a.toNat ≠ 0 → exec (.inv w) s = .next (s.present (a.toNat ^ (s.cfg.M - 2) % s.cfg.M)) ∧
      a.toNat * (a.toNat ^ (s.cfg.M - 2) % s.cfg.M) % s.cfg.M = 1) ∧
    (a.toNat = 0 → exec (.inv w) s = .next s.absent)

/-- 42_inv_sqrt.md R160: the root `x^((M+1)/4) mod M` when it squares back to `x`, otherwise the soft outcome. -/
def Obligations.SqrtGivesTheRootOrNone : Prop :=
  ∀ (w : Width) (s : State), s.faulted = false →
    HasFields (.sqrt w) 0x0A false ∧ FaultsInOrder (.sqrt w) s ∧
    (s.Ready (.sqrt w) →
      ∀ x r, s.cfg.M % 4 = 3 → s.A = some x → x.toNat < s.cfg.M → r = x.toNat ^ ((s.cfg.M + 1) / 4) % s.cfg.M →
      (r * r % s.cfg.M = x.toNat → exec (.sqrt w) s = .next (s.present r)) ∧
      (r * r % s.cfg.M ≠ x.toNat → exec (.sqrt w) s = .next s.absent))

/-- 42_inv_sqrt.md R162: on a prime modulus SQRT succeeds exactly on the squares, and its result squares to the
operand. -/
def Obligations.SqrtSucceedsExactlyOnSquares : Prop :=
  ∀ (w : Width) (s : State) (x : BitVec 128), s.Ready (.sqrt w) → s.cfg.M.Prime → s.cfg.M % 4 = 3 → s.A = some x →
    x.toNat < s.cfg.M → ∃ t, exec (.sqrt w) s = .next t ∧
      (t.V = some true ↔ ∃ y, y * y % s.cfg.M = x.toNat) ∧
      (t.V = some true → ∃ r, t.R = some r ∧ r.toNat * r.toNat % s.cfg.M = x.toNat)

/-- 42_inv_sqrt.md R164: `den = 0` with `num = 0` and with `num` other than 0, and a `den` with an inverse, which every
nonzero `den` of a prime modulus is. -/
def Obligations.SqrtrGivesTheRootOfTheRatio : Prop :=
  ∀ (w : Width) (s : State), s.faulted = false →
    HasFields (.sqrtr w) 0x0B false ∧ FaultsInOrder (.sqrtr w) s ∧
    (s.Ready (.sqrtr w) → ∀ num den, s.cfg.M % 4 = 3 → s.A = some num → s.B = some den → num.toNat < s.cfg.M →
      den.toNat < s.cfg.M →
      (den.toNat = 0 → num.toNat = 0 → exec (.sqrtr w) s = .next (s.present 0)) ∧
      (den.toNat = 0 → num.toNat ≠ 0 → exec (.sqrtr w) s = .next s.absent) ∧
      (∀ dinv x r, dinv < s.cfg.M → den.toNat * dinv % s.cfg.M = 1 → x = num.toNat * dinv % s.cfg.M →
        r = x ^ ((s.cfg.M + 1) / 4) % s.cfg.M →
        (r * r % s.cfg.M = x → exec (.sqrtr w) s = .next (s.present r)) ∧
        (r * r % s.cfg.M ≠ x → exec (.sqrtr w) s = .next s.absent)))

/-- SQRTR (42_inv_sqrt.md R164) with a `den` that is neither 0 nor invertible, which no prime modulus has: INV's free
value, whatever it is, stands for the inverse (the model's choice, log entry 10), and the rest is computed from it. -/
def Obligations.SqrtrWithoutAnInverseUsesTheFreeValue : Prop :=
  ∀ (w : Width) (s : State) (num den : BitVec 128), s.Ready (.sqrtr w) → s.cfg.M % 4 = 3 → s.A = some num →
    s.B = some den → num.toNat < s.cfg.M → den.toNat < s.cfg.M → den.toNat ≠ 0 → ¬ den.toNat.Coprime s.cfg.M →
    ∀ dinv x r, dinv = (Config.draw s.draws).toNat % 2 ^ s.cfg.W → x = num.toNat * dinv % s.cfg.M →
      r = x ^ ((s.cfg.M + 1) / 4) % s.cfg.M →
      (r * r % s.cfg.M = x → exec (.sqrtr w) s = .next (State.present { s with draws := s.draws + 1 } r)) ∧
      (r * r % s.cfg.M ≠ x → exec (.sqrtr w) s = .next (State.absent { s with draws := s.draws + 1 }))

/-! ## ENC, DEC, ISODD -/

/-- 43_codec.md R181: the `NB` bytes, most significant in `BUF[0]`; every other cell and `R` keep their values. -/
def Obligations.EncWritesTheBytes : Prop :=
  ∀ (w : Width) (s : State), s.faulted = false →
    HasFields (.enc w) 0x0C false ∧ FaultsInOrder (.enc w) s ∧
    (s.Ready (.enc w) → ∀ a, s.A = some a → a.toNat < s.cfg.M →
      ∃ m : Memory, exec (.enc w) s =
          .next { s with BUF := m, BLEN := some (BitVec.ofNat 8 s.cfg.NB), V := some true } ∧
        (∀ k < s.cfg.NB, Memory.read m k = some (BitVec.ofNat 8 (a.toNat >>> (8 * (s.cfg.NB - 1 - k))))) ∧
        (∀ k, s.cfg.NB ≤ k → Memory.read m k = Memory.read s.BUF k))

/-- 43_codec.md R182: the `ENV_BYTES` bytes, the first `ENV_BYTES - NB` of them zero. -/
def Obligations.EncEnvWritesThePaddedBytes : Prop :=
  ∀ (w : Width) (s : State), s.faulted = false → lengthOk s.cfg s.cfg.ENV_BYTES = true →
    HasFields (.encEnv w) 0x0C true ∧ FaultsInOrder (.encEnv w) s ∧
    (s.Ready (.encEnv w) → ∀ a, s.A = some a → a.toNat < s.cfg.M →
      ∃ m : Memory, exec (.encEnv w) s =
          .next { s with BUF := m, BLEN := some (BitVec.ofNat 8 s.cfg.ENV_BYTES), V := some true } ∧
        (∀ k < s.cfg.ENV_BYTES,
          Memory.read m k = some (BitVec.ofNat 8 (a.toNat >>> (8 * (s.cfg.ENV_BYTES - 1 - k))))) ∧
        (∀ k < s.cfg.ENV_BYTES - s.cfg.NB, Memory.read m k = some 0) ∧
        (∀ k, s.cfg.ENV_BYTES ≤ k → Memory.read m k = Memory.read s.BUF k))

/-- 43_codec.md R183: the value of `BUF[0..NB-1]` when it is below `M`, otherwise the soft outcome. -/
def Obligations.DecGivesTheValueOrNone : Prop :=
  ∀ (w : Width) (s : State), s.faulted = false →
    HasFields (.dec w) 0x0D false ∧ FaultsInOrder (.dec w) s ∧
    (s.Ready (.dec w) →
      ∀ (n : BitVec 8) (bs : List Byte), s.BLEN = some n → n.toNat = s.cfg.NB → bs.length = s.cfg.NB →
      Holds s.BUF bs →
      (beValue bs < s.cfg.M → exec (.dec w) s = .next (s.present (beValue bs))) ∧
      (s.cfg.M ≤ beValue bs → exec (.dec w) s = .next s.absent))

/-- 43_codec.md R184: as DEC with `ENV_BYTES` bytes, the padding zero. -/
def Obligations.DecEnvGivesTheValueOrNone : Prop :=
  ∀ (w : Width) (s : State), s.faulted = false → lengthOk s.cfg s.cfg.ENV_BYTES = true →
    HasFields (.decEnv w) 0x0D true ∧ FaultsInOrder (.decEnv w) s ∧
    (s.Ready (.decEnv w) →
      ∀ (n : BitVec 8) (bs : List Byte), s.BLEN = some n → n.toNat = s.cfg.ENV_BYTES → bs.length = s.cfg.ENV_BYTES →
      Holds s.BUF bs →
      ((∀ k < s.cfg.ENV_BYTES - s.cfg.NB, bs[k]? = some 0) ∧ beValue bs < s.cfg.M →
        exec (.decEnv w) s = .next (s.present (beValue bs))) ∧
      (¬ ((∀ k < s.cfg.ENV_BYTES - s.cfg.NB, bs[k]? = some 0) ∧ beValue bs < s.cfg.M) →
        exec (.decEnv w) s = .next s.absent))

/-- 43_codec.md R184, corner case: the padding test never changes the verdict, since a value below `M` has zero
padding. -/
def Obligations.PaddingTestNeverChangesTheVerdict : Prop :=
  ∀ (c : Config) (bs : List Byte), configOk c = true → lengthOk c c.ENV_BYTES = true → bs.length = c.ENV_BYTES →
    decodeEnvelope c bs = if beValue bs < c.M then some (beValue bs) else none

/-- 43_codec.md R185. -/
def Obligations.IsoddGivesTheParity : Prop :=
  ∀ (w : Width) (s : State), s.faulted = false →
    HasFields (.isodd w) 0x0E false ∧ FaultsInOrder (.isodd w) s ∧
    (s.Ready (.isodd w) → ∀ a, s.A = some a → a.toNat < s.cfg.M → exec (.isodd w) s = .next (s.present (a.toNat % 2)))

/-- 43_codec.md R186: ENC then DEC, and ENC.ENV then DEC.ENV, give back the operand; mixing the forms faults with
LENGTH_MISMATCH when the two lengths differ. -/
def Obligations.EncodingRoundTrips : Prop :=
  ∀ (w : Width) (s t : State), t.faulted = false →
    (exec (.enc w) s = .next t → t.BLEN = some (BitVec.ofNat 8 s.cfg.NB) ∧
      (∃ a, s.A = some a ∧ exec (.dec w) t = .next (t.present a.toNat)) ∧
      (lengthOk s.cfg s.cfg.ENV_BYTES = true → s.cfg.ENV_BYTES ≠ s.cfg.NB →
        exec (.decEnv w) t = .next (t.raise .lengthMismatch (encode (.decEnv w))))) ∧
    (exec (.encEnv w) s = .next t → t.BLEN = some (BitVec.ofNat 8 s.cfg.ENV_BYTES) ∧
      (∃ a, s.A = some a ∧ exec (.decEnv w) t = .next (t.present a.toNat)) ∧
      (s.cfg.ENV_BYTES ≠ s.cfg.NB → exec (.dec w) t = .next (t.raise .lengthMismatch (encode (.dec w)))))

/-! ## Byte sequences -/

/-- 00_scope.md R10: the big-endian value of a byte sequence, `b[0]` most significant, and the `n`-byte sequence of a
value below `256^n`. -/
def Obligations.ByteSequencesAreBigEndian : Prop :=
  (∀ bs : List Byte, beValue bs =
    ∑ i : Fin bs.length, (bs[i]).toNat * 256 ^ (bs.length - 1 - i.val)) ∧
  (∀ n v, v < 256 ^ n → (beBytes n v).length = n ∧ beValue (beBytes n v) = v)

/-- `BUF` in canonical form is determined by its 64 cells (10_state.md R30): two buffers whose cells read alike are the
same data, so that equal states are equal machines (the model's representation, log entry 8). -/
def Obligations.CanonicalBuffersAreDeterminedByTheirCells : Prop :=
  ∀ m m' : Memory, m.wf → m'.wf → (∀ k < 64, Memory.read m k = Memory.read m' k) → m = m'
end

