-- ==== Sys2Proof/Laws/Arith.lean ====
section
/-! SUPPORT. One lemma per arithmetic function, saying what it computes: the units' results as remainders, the
divider's exactness, the Euclidean loop, exponentiation and byte sequences. -/

namespace Sys2Proof.Machine

/-! ## Wrapping arithmetic, as remainders of integers -/

theorem wadd_eq_emod (W a b : ℕ) : ((wadd W a b : ℕ) : ℤ) = ((a : ℤ) + b) % 2 ^ W := by
  simp [wadd]

theorem wsub_eq_emod (W a b : ℕ) : ((wsub W a b : ℕ) : ℤ) = ((a : ℤ) - b) % 2 ^ W := by
  have h : b % 2 ^ W ≤ 2 ^ W := (Nat.mod_lt _ (by positivity)).le
  simp only [wsub]
  push_cast [Nat.cast_sub h]
  rw [← add_sub_assoc, add_sub_right_comm, Int.add_emod_right]
  exact Int.ModEq.sub_left _ (Int.mod_modEq _ _)

/-- The adder's one correction is enough (40_add_sub_neg.md R101). -/
theorem addMod_eq {W M a b : ℕ} (hM : M ≤ 2 ^ W - 1) (ha : a < M) (hb : b < M) :
    addMod W M a b = (a + b) % M := by
  have hW : 0 < 2 ^ W := by positivity
  have hsum : (a + b) % M = if M ≤ a + b then a + b - M else a + b := by
    split
    · rw [Nat.mod_eq_sub_mod ‹_›, Nat.mod_eq_of_lt (by omega)]
    · exact Nat.mod_eq_of_lt (by omega)
  have hwrap : (a + b) % 2 ^ W = if 2 ^ W ≤ a + b then a + b - 2 ^ W else a + b := by
    split
    · rw [Nat.mod_eq_sub_mod ‹_›, Nat.mod_eq_of_lt (by omega)]
    · exact Nat.mod_eq_of_lt (by omega)
  rw [hsum]
  simp only [addMod, sel, wadd, wsub, hwrap, Nat.mod_eq_of_lt (by omega : M < 2 ^ W)]
  by_cases hw : 2 ^ W ≤ a + b
  · have h1 : a + b - 2 ^ W < a := by omega
    have h2 : a + b - 2 ^ W + (2 ^ W - M) < 2 ^ W := by omega
    simp only [hw, if_true, h1, decide_true, Bool.or_true, Nat.mod_eq_of_lt h2]
    rw [if_pos (by omega)]
    omega
  · simp only [hw, if_false]
    by_cases hM' : M ≤ a + b
    · simp only [ge_iff_le, hM', decide_true, Bool.true_or, if_true]
      rw [Nat.mod_eq_sub_mod (by omega), Nat.mod_eq_of_lt (by omega)]
      omega
    · have h3 : ¬ a + b < a := by omega
      simp [hM', h3]

/-- The subtractor's one correction is enough (40_add_sub_neg.md R103). -/
theorem subMod_eq {W M a b : ℕ} (hM : M ≤ 2 ^ W - 1) (ha : a < M) (hb : b < M) :
    subMod W M a b = (a + (M - b)) % M := by
  have hW : 0 < 2 ^ W := by positivity
  simp only [subMod, sel, wadd, wsub, Nat.mod_eq_of_lt (by omega : b < 2 ^ W)]
  by_cases h : a < b
  · simp only [h, decide_true, if_true]
    rw [Nat.mod_eq_of_lt (by omega : a + (2 ^ W - b) < 2 ^ W), Nat.mod_eq_sub_mod (by omega),
      Nat.mod_eq_of_lt (by omega), Nat.mod_eq_of_lt (by omega : a + (M - b) < M)]
    omega
  · simp only [h, decide_false]
    have h1 : (a + (2 ^ W - b)) % 2 ^ W = a - b := by
      rw [Nat.mod_eq_sub_mod (by omega), Nat.mod_eq_of_lt (by omega)]
      omega
    have h2 : (a + (M - b)) % M = a - b := by
      rw [Nat.mod_eq_sub_mod (by omega), Nat.mod_eq_of_lt (by omega)]
      omega
    simp [h1, h2]

/-- The negator never represents `-0` as `M` (40_add_sub_neg.md R104). -/
theorem negMod_eq {W M a : ℕ} (hM : M ≤ 2 ^ W - 1) (ha : a < M) :
    negMod W M a = if a = 0 then 0 else M - a := by
  have hW : 0 < 2 ^ W := by positivity
  simp only [negMod, sel, wsub, Nat.mod_eq_of_lt (by omega : a < 2 ^ W)]
  by_cases h : a = 0
  · simp [h]
  · simp only [h, decide_false, Bool.false_eq_true, if_false]
    rw [Nat.mod_eq_sub_mod (by omega), Nat.mod_eq_of_lt (by omega)]
    omega

/-! ## The reciprocal divider -/

theorem lt_two_pow_bitLength (n : ℕ) : n < 2 ^ bitLength n := by
  unfold bitLength
  split_ifs with h
  · simp [h]
  · exact Nat.lt_log2_self

theorem two_pow_bitLength_le {n : ℕ} (h : n ≠ 0) : 2 ^ (bitLength n - 1) ≤ n := by
  rw [bitLength, if_neg h, Nat.add_sub_cancel]
  exact Nat.log2_self_le h

theorem bitLength_le_iff {n k : ℕ} : bitLength n ≤ k ↔ n < 2 ^ k := by
  unfold bitLength
  split_ifs with h
  · simp [h]
  · rw [← Nat.log2_lt h]
    omega

/-- Leading zeros normalise: shifting a nonzero `k`-bit value by them sets its top bit (10_state.md R24). -/
theorem clzBits_normalises {k d : ℕ} (hd : 0 < d) (hk : d < 2 ^ k) :
    2 ^ k ≤ 2 * (d * 2 ^ clzBits k d) ∧ d * 2 ^ clzBits k d < 2 ^ k := by
  induction k with
  | zero => omega
  | succ k ih =>
    rw [pow_succ] at hk ⊢
    rw [clzBits]
    split
    · simp; omega
    · have h := ih (by omega)
      rw [pow_succ]
      constructor <;> nlinarith [h.1, h.2]

theorem clz64_normalises {d : ℕ} (hd : 0 < d) (h64 : d < 2 ^ 64) :
    2 ^ 63 ≤ d * 2 ^ clz64 d ∧ d * 2 ^ clz64 d < 2 ^ 64 := by
  have h := clzBits_normalises hd h64
  simp only [clz64]
  omega

/-- The defining property of the reciprocal of a normalised divisor (10_state.md R24). -/
theorem reciprocal_spec {d : ℕ} (h1 : 2 ^ 63 ≤ d) (h2 : d < 2 ^ 64) :
    ∃ k, 1 ≤ k ∧ k ≤ d ∧ (2 ^ 64 + reciprocal d) * d + k = 2 ^ 128 := by
  have hd : 0 < d := by omega
  have hq : 2 ^ 64 ≤ (2 ^ 128 - 1) / d := by
    rw [Nat.le_div_iff_mul_le hd]
    omega
  refine ⟨(2 ^ 128 - 1) % d + 1, by omega, Nat.mod_lt _ hd, ?_⟩
  have hv : 2 ^ 64 + reciprocal d = (2 ^ 128 - 1) / d := by
    unfold reciprocal
    omega
  rw [hv, mul_comm]
  have := Nat.div_add_mod (2 ^ 128 - 1) d
  omega

/-- The Möller–Granlund estimate for a general base `β`: the candidate remainder `r` of the quotient estimate `q1 + 1`
lies in the range the two corrections mend. -/
theorem divEstimate_range {β d v k u1 u0 q1 q0 : ℤ} (hβ : 0 < β) (hd : β ≤ 2 * d) (hd2 : d < β)
    (hk1 : 1 ≤ k) (hk2 : k ≤ d) (hv : (β + v) * d + k = β * β) (hu1 : 0 ≤ u1) (hu1d : u1 < d)
    (hu0 : 0 ≤ u0) (hu0β : u0 < β) (hq0 : 0 ≤ q0) (hq0β : q0 < β)
    (ht : (β + v) * u1 + u0 = q1 * β + q0) {r : ℤ} (hr : r = u1 * β + u0 - (q1 + 1) * d) :
    -d ≤ r ∧ q0 - β < r ∧ r < β ∧ (q0 < r → r < β - d) := by
  have hkey : β * r = u1 * k + u0 * (β - d) + (q0 - β) * d := by
    rw [hr]
    linear_combination -u1 * hv + d * ht
  have h1 : 0 ≤ u1 * k := mul_nonneg hu1 (by omega)
  have h2 : 0 ≤ u0 * (β - d) := mul_nonneg hu0 (by omega)
  have h3 : u1 * k ≤ (d - 1) * d := by nlinarith
  have h4 : u0 * (β - d) ≤ (β - 1) * (β - d) := by nlinarith
  have hup : β * r < (β - d) * (β - d) + q0 * d := by nlinarith
  refine ⟨?_, ?_, ?_, ?_⟩
  · have : β * (-d) ≤ β * r := by nlinarith
    exact le_of_mul_le_mul_left this hβ
  · have : β * (q0 - β) < β * r := by nlinarith
    exact lt_of_mul_lt_mul_left this hβ.le
  · have : β * r < β * β := by nlinarith
    exact lt_of_mul_lt_mul_left this hβ.le
  · intro hr
    by_contra hge
    have : (β - d) * (β - d) + q0 * d ≤ β * r := by nlinarith
    omega

/-- The 2-by-1 division is exact, quotient and remainder (41_mul_reduce.md R127). -/
theorem div2by1_exact {u1 u0 d : ℕ} (hd1 : 2 ^ 63 ≤ d) (hd2 : d < 2 ^ 64) (hu1 : u1 < d) (hu0 : u0 < 2 ^ 64) :
    div2by1 u1 u0 d (reciprocal d) = ((u1 * 2 ^ 64 + u0) / d, (u1 * 2 ^ 64 + u0) % d) := by
  obtain ⟨k, hk1, hk2, hv⟩ := reciprocal_spec hd1 hd2
  generalize reciprocal d = v at hv ⊢
  have hT : v * u1 + (u1 * 2 ^ 64 + u0) < 2 ^ 128 := by
    have : (2 ^ 64 + v) * u1 ≤ (2 ^ 64 + v) * (d - 1) := Nat.mul_le_mul_left _ (by omega)
    have h2 : (2 ^ 64 + v) * (d - 1) + (2 ^ 64 + v) = (2 ^ 64 + v) * d := by
      rw [← Nat.mul_succ]; congr 1; omega
    nlinarith
  set t := v * u1 + (u1 * 2 ^ 64 + u0) with htdef
  have htq : (2 ^ 64 + v) * u1 + u0 = t / 2 ^ 64 * 2 ^ 64 + t % 2 ^ 64 := by
    rw [mul_comm (t / 2 ^ 64), Nat.div_add_mod, htdef]; ring
  have hq1 : t / 2 ^ 64 < 2 ^ 64 := by omega
  have hq0 : t % 2 ^ 64 < 2 ^ 64 := by omega
  have hdiv : div2by1 u1 u0 d v =
      (let r := wsub 64 u0 (wadd 64 (t / 2 ^ 64) 1 * d)
       let c1 := decide (r > t % 2 ^ 64)
       let q1 := if c1 then wsub 64 (wadd 64 (t / 2 ^ 64) 1) 1 else wadd 64 (t / 2 ^ 64) 1
       let r := if c1 then wadd 64 r d else r
       if r ≥ d then (wadd 64 q1 1, wsub 64 r d) else (q1, r)) := by
    simp only [div2by1, ← htdef, Nat.mod_eq_of_lt hT]
  rw [hdiv]
  generalize t / 2 ^ 64 = q1 at *
  generalize t % 2 ^ 64 = q0 at *
  set r : ℤ := (u1 : ℤ) * 2 ^ 64 + u0 - (q1 + 1) * d with hr
  obtain ⟨h1, h2, h3, h4⟩ := divEstimate_range (β := 2 ^ 64) (d := d) (v := v) (k := k) (u1 := u1) (u0 := u0)
    (q1 := q1) (q0 := q0) (by norm_num) (by omega) (by omega) (by omega) (by omega)
    (by norm_num; exact_mod_cast hv) (by omega) (by omega) (by omega) (by omega) (by omega) (by omega)
    (by exact_mod_cast htq) hr
  have hrem : ((wsub 64 u0 (wadd 64 q1 1 * d) : ℕ) : ℤ) = r % 2 ^ 64 := by
    rw [wsub_eq_emod]
    push_cast
    rw [wadd_eq_emod]
    have hA : ((q1 : ℤ) + 1) % 2 ^ 64 * d ≡ (q1 + 1) * d [ZMOD 2 ^ 64] :=
      (Int.mod_modEq _ _).mul_right _
    have hB : r ≡ u0 - (q1 + 1) * d [ZMOD 2 ^ 64] := by
      rw [Int.modEq_iff_dvd, hr]
      exact ⟨-u1, by ring⟩
    push_cast
    exact (hA.sub_left _).trans hB.symm
  -- the quotient and remainder are fixed by the division identity
  have hunique : ∀ q s : ℕ, (u1 : ℤ) * 2 ^ 64 + u0 = q * d + s → s < d →
      ((u1 * 2 ^ 64 + u0) / d, (u1 * 2 ^ 64 + u0) % d) = (q, s) := by
    intro q s h hs
    have hn : u1 * 2 ^ 64 + u0 = s + d * q := by zify; linarith
    rw [hn, Nat.add_mul_div_left _ _ (by omega), Nat.add_mul_mod_self_left, Nat.div_eq_of_lt hs, Nat.mod_eq_of_lt hs]
    simp
  have hqs : wsub 64 (wadd 64 q1 1) 1 = q1 := by
    zify
    rw [wsub_eq_emod, wadd_eq_emod]
    push_cast
    omega
  generalize wsub 64 u0 (wadd 64 q1 1 * d) = x at *
  by_cases hneg : r < 0
  · -- the estimate is one too large: correction 1
    have hx : (x : ℤ) = r + 2 ^ 64 := by omega
    have hc : x > q0 := by omega
    have hy : ((wadd 64 x d : ℕ) : ℤ) = r + d := by rw [wadd_eq_emod]; omega
    simp only [hc, decide_true, if_true, hqs]
    rw [if_neg (by omega)]
    exact (hunique _ _ (by rw [hy, hr]; ring) (by omega)).symm
  · have hx : (x : ℤ) = r := by omega
    by_cases hc : x > q0
    · -- correction 1 is undone by correction 2
      have hlt := h4 (by omega)
      have hy : ((wadd 64 x d : ℕ) : ℤ) = r + d := by rw [wadd_eq_emod]; omega
      simp only [hc, decide_true, if_true, hqs]
      rw [if_pos (by omega)]
      have hz : ((wsub 64 (wadd 64 x d) d : ℕ) : ℤ) = r := by rw [wsub_eq_emod, hy]; omega
      have hq : (wadd 64 q1 1 : ℤ) = q1 + 1 := by
        rw [wadd_eq_emod]
        have hub : ((q1 : ℤ) + 1) * d ≤ u1 * 2 ^ 64 + u0 := by omega
        have : ((q1 : ℤ) + 1) < 2 ^ 64 := by nlinarith
        push_cast
        omega
      exact (hunique _ _ (by rw [hq, hz, hr]; ring) (by omega)).symm
    · have hq : (wadd 64 q1 1 : ℤ) = q1 + 1 := by
        rw [wadd_eq_emod]
        have hub : ((q1 : ℤ) + 1) * d ≤ u1 * 2 ^ 64 + u0 := by omega
        have : ((q1 : ℤ) + 1) < 2 ^ 64 := by nlinarith
        push_cast
        omega
      simp only [hc, decide_false, Bool.false_eq_true, if_false]
      by_cases hge : x ≥ d
      · -- correction 2
        rw [if_pos hge]
        have hz : ((wsub 64 x d : ℕ) : ℤ) = r - d := by rw [wsub_eq_emod]; omega
        have hq' : (wadd 64 (wadd 64 q1 1) 1 : ℤ) = q1 + 2 := by
          rw [wadd_eq_emod, hq]
          have hub : ((q1 : ℤ) + 2) * d ≤ u1 * 2 ^ 64 + u0 := by nlinarith
          have : ((q1 : ℤ) + 2) < 2 ^ 64 := by nlinarith
          push_cast
          omega
        exact (hunique _ _ (by rw [hq', hz, hr]; ring) (by omega)).symm
      · rw [if_neg hge]
        exact (hunique _ _ (by rw [hq, hx, hr]; ring) (by omega)).symm

/-- Division by a reciprocal made for the divisor `m` is exact where the high word of the dividend is below `m`
(41_mul_reduce.md R124, R133). -/
theorem remByReciprocal_exact {m p : ℕ} (hm : 0 < m) (h64 : m < 2 ^ 64) (hp : p / 2 ^ 64 < m) :
    remByReciprocal (clz64 m) (m <<< clz64 m) (reciprocal (m <<< clz64 m)) p = p % m := by
  obtain ⟨h1, h2⟩ := clz64_normalises hm h64
  simp only [remByReciprocal, Nat.shiftLeft_eq, Nat.shiftRight_eq_div_pow]
  generalize clz64 m = s at *
  have hps : p < m * 2 ^ 64 := (Nat.div_lt_iff_lt_mul (by positivity)).1 hp
  have hx : p * 2 ^ s < m * 2 ^ s * 2 ^ 64 := by
    have : 0 < 2 ^ s := by positivity
    nlinarith
  have hu : p * 2 ^ s / 2 ^ 64 < m * 2 ^ s := (Nat.div_lt_iff_lt_mul (by positivity)).2 hx
  rw [Nat.mod_eq_of_lt (by omega : p * 2 ^ s / 2 ^ 64 < 2 ^ 64), div2by1_exact h1 h2 hu (Nat.mod_lt _ (by positivity))]
  have : p * 2 ^ s / 2 ^ 64 * 2 ^ 64 + p * 2 ^ s % 2 ^ 64 = p * 2 ^ s := by
    rw [mul_comm (p * 2 ^ s / 2 ^ 64), Nat.div_add_mod]
  simp only [this]
  rw [Nat.mul_mod_mul_right, Nat.mul_div_cancel _ (by positivity)]

/-! ## Exponentiation -/

theorem powMod_eq {m k x e : ℕ} (he : e < 2 ^ k) : powMod m k x e = x ^ e % m := by
  induction k generalizing x e with
  | zero =>
    have : e = 0 := by simpa using he
    simp [powMod, this]
  | succ k ih =>
    have hx : powMod m k (x * x % m) (e / 2) = x ^ (2 * (e / 2)) % m := by
      rw [ih (by rw [pow_succ] at he; omega), ← Nat.pow_mod, ← pow_two, ← pow_mul]
    rw [powMod, hx]
    split
    · rw [Nat.mul_mod_mod, ← pow_succ']
      congr 2
      omega
    · congr 2
      omega

/-- The candidate root is the power of 42_inv_sqrt.md R160. -/
theorem rootCandidate_eq {W M x : ℕ} (hM : M < 2 ^ W) (h2 : 2 ≤ M) :
    rootCandidate W M x = x ^ ((M + 1) / 4) % M :=
  powMod_eq (by omega)

/-! ## The extended Euclidean algorithm -/

/-- The invariant of the loop of 42_inv_sqrt.md R151: `x1` and `x0` are the cofactors of the running remainders `u`
and `w` modulo `M`, of opposite sign, and small enough that a cofactor in use stays below `M`. -/
structure EuclidInv (M a u w : ℕ) (x0 x1 : ℤ) : Prop where
  pos : 0 < u
  gcd : u.gcd w = M.gcd a
  cofactor1 : a * x1 ≡ u [ZMOD M]
  cofactor0 : a * x0 ≡ w [ZMOD M]
  signs : x0 * x1 ≤ 0
  size : |x0| * u + |x1| * w = M
  small1 : |x1| < M
  small0 : w = 0 ∨ |x0| < M

theorem EuclidInv.start {M a : ℕ} (ha : 0 < a) (hM : 2 ≤ M) : EuclidInv M a a M 0 1 where
  pos := ha
  gcd := Nat.gcd_comm _ _
  cofactor1 := by simp
  cofactor0 := by simp [Int.ModEq]
  signs := by simp
  size := by simp
  small1 := by simp; omega
  small0 := by right; simp; omega

theorem EuclidInv.next {M a u w : ℕ} {x0 x1 : ℤ} (h : EuclidInv M a u w x0 x1) (hw : w ≠ 0) :
    EuclidInv M a w (u % w) (x1 - ((u / w : ℕ) : ℤ) * x0) x0 := by
  have hdiv : (u : ℤ) = w * ((u / w : ℕ) : ℤ) + ((u % w : ℕ) : ℤ) := by exact_mod_cast (Nat.div_add_mod u w).symm
  have hr : u % w < w := Nat.mod_lt _ (by omega)
  have h0 : |x0| < M := h.small0.resolve_left hw
  have hq : (0 : ℤ) ≤ ((u / w : ℕ) : ℤ) := by positivity
  generalize ((u / w : ℕ) : ℤ) = q at *
  have hsign : (x1 - q * x0) * x0 ≤ 0 := by nlinarith [h.signs, mul_self_nonneg x0]
  have habs : |x1 - q * x0| = |x1| + q * |x0| := by
    rcases le_total 0 x0 with hx | hx
    · rcases eq_or_lt_of_le hx with rfl | hx'
      · simp
      · have h1 : x1 ≤ 0 := by nlinarith [h.signs]
        rw [abs_of_nonpos h1, abs_of_nonneg hx, abs_of_nonpos (by nlinarith)]
        ring
    · rcases eq_or_lt_of_le hx with rfl | hx'
      · simp
      · have h1 : 0 ≤ x1 := by nlinarith [h.signs]
        rw [abs_of_nonneg h1, abs_of_nonpos hx, abs_of_nonneg (by nlinarith)]
        ring
  have hsize : |x1 - q * x0| * w + |x0| * ((u % w : ℕ) : ℤ) = M := by
    rw [habs, ← h.size, hdiv]
    ring
  refine ⟨by omega, ?_, h.cofactor0, ?_, hsign, hsize, h0, ?_⟩
  · rw [← h.gcd, Nat.gcd_comm u w, Nat.gcd_rec w u, Nat.gcd_comm]
  · have := h.cofactor1.sub (h.cofactor0.mul_left q)
    convert this using 1
    · ring
    · rw [hdiv]; ring
  · by_cases hz : u % w = 0
    · exact .inl hz
    · right
      have hw2 : (2 : ℤ) ≤ w := by omega
      have hpos : 0 < M := by
        rcases Nat.eq_zero_or_pos M with rfl | hp
        · have := abs_nonneg x0; omega
        · exact hp
      have := abs_nonneg (x1 - q * x0)
      have h3 : 0 ≤ |x0| * ((u % w : ℕ) : ℤ) := by positivity
      nlinarith

/-- At the loop's exit with `u = 1` the normalised cofactor is the inverse. -/
theorem EuclidInv.inverse {M a u w : ℕ} {x0 x1 : ℤ} (h : EuclidInv M a u w x0 x1) (hM : 2 ≤ M) (hu : u ≤ 1) :
    M.gcd a = 1 ∧ ∃ r, (if x1 < 0 then M - x1.natAbs else x1.natAbs) = r ∧ r < M ∧ a * r % M = 1 := by
  have hu1 : u = 1 := by have := h.pos; omega
  subst hu1
  refine ⟨by rw [← h.gcd]; simp, _, rfl, ?_⟩
  have hs : x1.natAbs < M := by zify; exact h.small1
  have hc := h.cofactor1
  have key : ∀ r : ℕ, (a * (r : ℤ) ≡ 1 [ZMOD M]) → a * r % M = 1 := by
    intro r hr
    have : a * r ≡ 1 [MOD M] := by
      rw [← Int.natCast_modEq_iff]
      push_cast
      exact hr
    rw [this, Nat.mod_eq_of_lt (by omega)]
  split
  · rename_i hneg
    refine ⟨by omega, key _ ?_⟩
    have hcast : ((M - x1.natAbs : ℕ) : ℤ) = M + x1 := by omega
    rw [hcast, mul_add]
    have : (a : ℤ) * M ≡ 0 [ZMOD M] := (Int.modEq_zero_iff_dvd).2 ⟨a, by ring⟩
    simpa using this.add hc
  · refine ⟨by omega, key _ ?_⟩
    have hcast : ((x1.natAbs : ℕ) : ℤ) = x1 := by omega
    rw [hcast]
    simpa using hc

/-- What the loop answers, and that `2*k + 1` iterations are enough for a remainder below `2^k`. -/
theorem euclidLoop_fuel {M a k : ℕ} (hM : 2 ≤ M) : ∀ {u w : ℕ} {x0 x1 : ℤ}, EuclidInv M a u w x0 x1 → w < 2 ^ k →
    (M.gcd a = 1 ∧ ∃ r, euclidLoop M (2 * k + 1) u w x0 x1 = some r ∧ r < M ∧ a * r % M = 1) ∨
    (M.gcd a ≠ 1 ∧ euclidLoop M (2 * k + 1) u w x0 x1 = none) := by
  induction k with
  | zero =>
    intro u w x0 x1 h hw
    have hw0 : w = 0 := by simpa using hw
    subst hw0
    by_cases hu : u ≤ 1
    · obtain ⟨hg, r, hr, hlt, hinv⟩ := h.inverse hM hu
      exact .inl ⟨hg, r, by simp [euclidLoop, hu, hr], hlt, hinv⟩
    · exact .inr ⟨by rw [← h.gcd]; simp; omega, by simp [euclidLoop, hu]⟩
  | succ k ih =>
    intro u w x0 x1 h hw
    by_cases hu : u ≤ 1
    · obtain ⟨hg, r, hr, hlt, hinv⟩ := h.inverse hM hu
      exact .inl ⟨hg, r, by simp [euclidLoop, hu, hr], hlt, hinv⟩
    by_cases hw0 : w = 0
    · subst hw0
      exact .inr ⟨by rw [← h.gcd]; simp; omega, by simp [euclidLoop, hu]⟩
    have h' := h.next hw0
    have hfuel : 2 * (k + 1) + 1 = (2 * k + 1) + 1 + 1 := by ring
    rw [hfuel, euclidLoop, if_neg hu, if_neg hw0]
    by_cases hw1 : w ≤ 1
    · obtain ⟨hg, r, hr, hlt, hinv⟩ := h'.inverse hM hw1
      exact .inl ⟨hg, r, by rw [euclidLoop, if_pos hw1, hr], hlt, hinv⟩
    by_cases hr0 : u % w = 0
    · refine .inr ⟨?_, by rw [euclidLoop, if_neg hw1, if_pos hr0]⟩
      rw [← h'.gcd, hr0]
      simp; omega
    rw [euclidLoop, if_neg hw1, if_neg hr0]
    refine ih (h'.next hr0) ?_
    have h1 : u % w < w := Nat.mod_lt _ (by omega)
    have h2 : w % (u % w) < u % w := Nat.mod_lt _ (by omega)
    have h3 : u % w + w % (u % w) ≤ w := by
      have := Nat.div_add_mod w (u % w)
      have hq : 1 ≤ w / (u % w) := (Nat.one_le_div_iff (by omega)).2 h1.le
      nlinarith
    rw [pow_succ] at hw
    omega

/-- `EXT_EUCLID_INV` finds the inverse exactly when there is one (42_inv_sqrt.md R151). -/
theorem extEuclidInv_spec {W M a : ℕ} (hM : 2 ≤ M) (hW : M < 2 ^ W) :
    (a.Coprime M ∧ ∃ r, extEuclidInv W M a = some r ∧ r < M ∧ a * r % M = 1) ∨
    (¬ a.Coprime M ∧ extEuclidInv W M a = none) := by
  have hM1 : ¬ M ≤ 1 := by omega
  by_cases ha : a = 0
  · subst ha
    refine .inr ⟨?_, by simp [extEuclidInv]⟩
    rw [Nat.coprime_zero_left]
    omega
  · have h := euclidLoop_fuel hM (EuclidInv.start (a := a) (by omega) hM) hW
    simp only [extEuclidInv, if_neg hM1, if_neg ha, Nat.coprime_iff_gcd_eq_one, Nat.gcd_comm a M]
    exact h

/-! ## Byte sequences -/

theorem beBytes_length (n a : ℕ) : (beBytes n a).length = n := by
  induction n with
  | zero => rfl
  | succ n ih => simp [beBytes, ih]

theorem beValue_lt (bs : List Byte) : beValue bs < 256 ^ bs.length := by
  induction bs with
  | nil => simp [beValue]
  | cons b bs ih =>
    have := b.isLt
    simp only [beValue, List.length_cons, pow_succ]
    have h : b.toNat * 256 ^ bs.length ≤ 255 * 256 ^ bs.length := Nat.mul_le_mul_right _ (by omega)
    omega

/-- The bytes of a value hold it (43_codec.md R186 rests on this). -/
theorem beValue_beBytes (n a : ℕ) : beValue (beBytes n a) = a % 256 ^ n := by
  induction n with
  | zero => simp [beBytes, beValue, Nat.mod_one]
  | succ n ih =>
    have h256 : 2 ^ (8 * n) = 256 ^ n := by rw [pow_mul]; norm_num
    have hb : (BitVec.ofNat 8 (a >>> (8 * n))).toNat = a / 256 ^ n % 256 := by
      rw [BitVec.toNat_ofNat, Nat.shiftRight_eq_div_pow, h256]
    rw [beBytes, beValue, beBytes_length, ih, hb, pow_succ, Nat.mod_mul]
    ring

/-- The `i`-th byte of an encoding (43_codec.md R181). -/
theorem beBytes_getElem? {n i : ℕ} (a : ℕ) (hi : i < n) :
    (beBytes n a)[i]? = some (BitVec.ofNat 8 (a >>> (8 * (n - 1 - i)))) := by
  induction n generalizing i with
  | zero => omega
  | succ n ih =>
    cases i with
    | zero => simp [beBytes]
    | succ i =>
      have : n + 1 - 1 - (i + 1) = n - 1 - i := by omega
      simp only [beBytes, List.getElem?_cons_succ, ih (by omega : i < n), this]

/-! ## The 2-adic valuation -/

/-- `2^S` divides `n` and `2^(S+1)` does not (10_state.md R25). -/
theorem valuation2_spec {k n : ℕ} (hn : 0 < n) (hk : n < 2 ^ k) :
    2 ^ valuation2 k n ∣ n ∧ ¬ 2 ^ (valuation2 k n + 1) ∣ n := by
  induction k generalizing n with
  | zero => omega
  | succ k ih =>
    rw [valuation2]
    by_cases h : n % 2 = 0
    · obtain ⟨m, rfl⟩ := Nat.dvd_of_mod_eq_zero h
      have hm := ih (n := m) (by omega) (by rw [pow_succ] at hk; omega)
      simp only [Nat.mul_mod_right, if_true, Nat.mul_div_cancel_left m (by norm_num : 0 < 2)]
      rw [pow_succ', pow_succ' 2 (valuation2 k m + 1), Nat.mul_dvd_mul_iff_left (by norm_num),
        Nat.mul_dvd_mul_iff_left (by norm_num)]
      exact hm
    · rw [if_neg h]
      simp
      omega

end Sys2Proof.Machine
end

