-- ==== Sys2Proof/Laws/Memory.lean ====
section
/-! SUPPORT. The laws of the cells of `BUF`: reading after writing, and that writing keeps the canonical form. -/

namespace Sys2Proof.Machine

@[simp] theorem Memory.read_nil (i : ℕ) : Memory.read [] i = none := rfl

/-- A read after a write gives the byte written at that cell, and what was there before at every other. -/
theorem Memory.read_write (m : Memory) (i j : ℕ) (b : Byte) :
    Memory.read (Memory.write m i b) j = if j = i then some b else Memory.read m j := by
  induction m with
  | nil =>
    simp only [Memory.write, Memory.read]
    by_cases h : i = j <;> simp [h, eq_comm]
  | cons c m ih =>
    obtain ⟨k, v⟩ := c
    simp only [Memory.write]
    split_ifs with h1 h2 <;> simp only [Memory.read] <;> try rw [ih]
    all_goals split_ifs <;> first | rfl | omega

/-- Every cell of a written buffer is an old cell or the written one. -/
theorem Memory.mem_write {m : Memory} {i : ℕ} {b : Byte} {c : Host.Cell} (h : c ∈ Memory.write m i b) :
    c = (i, b) ∨ c ∈ m := by
  induction m with
  | nil => simpa [Memory.write] using h
  | cons d m ih =>
    obtain ⟨k, v⟩ := d
    simp only [Memory.write] at h
    split_ifs at h
    · simpa using h
    · rcases List.mem_cons.1 h with h | h
      · exact .inl h
      · exact .inr (List.mem_cons_of_mem _ h)
    · rcases List.mem_cons.1 h with h | h
      · exact .inr (h ▸ List.mem_cons_self)
      · exact (ih h).imp_right (List.mem_cons_of_mem _)

theorem Memory.write_wf {m : Memory} {i : ℕ} {b : Byte} (hm : m.wf) (hi : i < 64) : (Memory.write m i b).wf := by
  refine ⟨?_, fun c hc => ?_⟩
  · obtain ⟨hs, -⟩ := hm
    induction m with
    | nil => simp [Memory.write]
    | cons d m ih =>
      obtain ⟨k, v⟩ := d
      have htail := (List.pairwise_cons.1 hs).2
      have hhead := (List.pairwise_cons.1 hs).1
      simp only [Memory.write]
      split_ifs with h1 h2
      · refine List.pairwise_cons.2 ⟨fun c hc => ?_, hs⟩
        rcases List.mem_cons.1 hc with rfl | hc
        · exact h1
        · exact lt_trans h1 (hhead c hc)
      · subst h2
        exact List.pairwise_cons.2 ⟨hhead, htail⟩
      · refine List.pairwise_cons.2 ⟨fun c hc => ?_, ih htail⟩
        rcases Memory.mem_write hc with rfl | hc
        · simp only; omega
        · exact hhead c hc
  · rcases Memory.mem_write hc with rfl | hc
    · exact hi
    · exact hm.2 c hc

theorem Memory.nil_wf : Memory.wf [] := by simp [Memory.wf]

theorem Memory.writeFrom_wf {bs : List Byte} : ∀ {m : Memory} {i : ℕ}, m.wf → i + bs.length ≤ 64 →
    (Memory.writeFrom m i bs).wf := by
  induction bs with
  | nil => intro m i hm _; exact hm
  | cons b bs ih =>
    intro m i hm hi
    simp only [List.length_cons] at hi
    exact ih (Memory.write_wf hm (by omega)) (by omega)

/-- Reading after a sequence is written: the sequence's byte inside it, the old cell outside. -/
theorem Memory.read_writeFrom {bs : List Byte} : ∀ (m : Memory) (i j : ℕ),
    Memory.read (Memory.writeFrom m i bs) j = if i ≤ j ∧ j < i + bs.length then bs[j - i]? else Memory.read m j := by
  induction bs with
  | nil => intro m i j; simp [Memory.writeFrom]
  | cons b bs ih =>
    intro m i j
    rw [Memory.writeFrom, ih, Memory.read_write]
    by_cases hj : j = i
    · subst hj
      simp
    · simp only [List.length_cons, hj, if_false]
      by_cases h : i ≤ j ∧ j < i + (bs.length + 1)
      · rw [if_pos (by omega), if_pos h]
        obtain ⟨k, hk⟩ : ∃ k, j - i = k + 1 := ⟨j - i - 1, by omega⟩
        rw [hk, List.getElem?_cons_succ]
        congr 1
        omega
      · rw [if_neg (by omega), if_neg h]

/-- The bytes a sequence read finds, when all its cells are written. -/
theorem Memory.readFrom_eq_some {m : Memory} {n : ℕ} : ∀ {i : ℕ} {bs : List Byte},
    Memory.readFrom m i n = some bs ↔ bs.length = n ∧ ∀ k < n, Memory.read m (i + k) = bs[k]? := by
  induction n with
  | zero =>
    intro i bs
    simp only [Memory.readFrom, Option.some.injEq, eq_comm (a := []), List.length_eq_zero_iff]
    simp
  | succ n ih =>
    intro i bs
    rw [Memory.readFrom]
    constructor
    · intro h
      split at h
      · simp at h
      · rename_i b hb
        obtain ⟨cs, hcs, rfl⟩ := Option.map_eq_some_iff.1 h
        obtain ⟨hl, hr⟩ := ih.1 hcs
        refine ⟨by simp [hl], fun k hk => ?_⟩
        cases k with
        | zero => simpa using hb
        | succ k => simpa [Nat.add_assoc, Nat.add_comm 1 k] using hr k (by omega)
    · rintro ⟨hl, hr⟩
      cases bs with
      | nil => simp at hl
      | cons b bs =>
        have h0 : Memory.read m i = some b := by simpa using hr 0 (by omega)
        have hrest : Memory.readFrom m (i + 1) n = some bs :=
          ih.2 ⟨by simpa using hl, fun k hk => by
            simpa [Nat.add_assoc, Nat.add_comm 1 k] using hr (k + 1) (by omega)⟩
        simp [h0, hrest]

/-- A sequence read finds nothing exactly when one of its cells is unwritten. -/
theorem Memory.readFrom_eq_none {m : Memory} {n : ℕ} : ∀ {i : ℕ},
    Memory.readFrom m i n = none ↔ ∃ k < n, Memory.read m (i + k) = none := by
  induction n with
  | zero => intro i; simp [Memory.readFrom]
  | succ n ih =>
    intro i
    rw [Memory.readFrom]
    constructor
    · intro h
      split at h
      · rename_i hb
        exact ⟨0, by omega, hb⟩
      · obtain ⟨k, hk, hr⟩ := ih.1 (Option.map_eq_none_iff.1 h)
        exact ⟨k + 1, by omega, by rw [← hr]; congr 1; omega⟩
    · rintro ⟨k, hk, hr⟩
      cases k with
      | zero => simp at hr; simp [hr]
      | succ k =>
        have : Memory.readFrom m (i + 1) n = none := ih.2 ⟨k, by omega, by rw [← hr]; congr 1; omega⟩
        split <;> simp [this]

/-- What was written as a sequence is read back as it. -/
theorem Memory.readFrom_writeFrom (m : Memory) (i : ℕ) (bs : List Byte) :
    Memory.readFrom (Memory.writeFrom m i bs) i bs.length = some bs := by
  refine Memory.readFrom_eq_some.2 ⟨rfl, fun k hk => ?_⟩
  rw [Memory.read_writeFrom, if_pos (by omega), Nat.add_sub_cancel_left]

end Sys2Proof.Machine
end

