-- ==== Sys2Proof/Laws/State.lean ====
section
/-! SUPPORT. What each update of the state does to each field, so that no later proof unfolds a record update. -/

namespace Sys2Proof.Machine

/-! ### `State.result` -/

@[simp] theorem State.result_cfg (s : State) (r : ℕ) : (s.result r).cfg = s.cfg := rfl
@[simp] theorem State.result_A (s : State) (r : ℕ) : (s.result r).A = s.A := rfl
@[simp] theorem State.result_B (s : State) (r : ℕ) : (s.result r).B = s.B := rfl
@[simp] theorem State.result_R (s : State) (r : ℕ) : (s.result r).R = some (BitVec.ofNat 64 (r % 2 ^ s.cfg.W)) := rfl
@[simp] theorem State.result_V (s : State) (r : ℕ) : (s.result r).V = some true := rfl
@[simp] theorem State.result_BUF (s : State) (r : ℕ) : (s.result r).BUF = s.BUF := rfl
@[simp] theorem State.result_BLEN (s : State) (r : ℕ) : (s.result r).BLEN = s.BLEN := rfl
@[simp] theorem State.result_STATUS (s : State) (r : ℕ) : (s.result r).STATUS = s.STATUS := rfl
@[simp] theorem State.result_FCMD (s : State) (r : ℕ) : (s.result r).FCMD = s.FCMD := rfl
@[simp] theorem State.result_host (s : State) (r : ℕ) : (s.result r).host = s.host := rfl
@[simp] theorem State.result_readBack (s : State) (r : ℕ) : (s.result r).readBack = s.readBack := rfl
@[simp] theorem State.result_draws (s : State) (r : ℕ) : (s.result r).draws = s.draws := rfl
@[simp] theorem State.result_faulted (s : State) (r : ℕ) : (s.result r).faulted = s.faulted := rfl

/-! ### `State.soft` -/

@[simp] theorem State.soft_cfg (s : State) : s.soft.cfg = s.cfg := rfl
@[simp] theorem State.soft_A (s : State) : s.soft.A = s.A := rfl
@[simp] theorem State.soft_B (s : State) : s.soft.B = s.B := rfl
@[simp] theorem State.soft_R (s : State) : s.soft.R = some (BitVec.ofNat 64 (drawW s.cfg.W s.draws)) := rfl
@[simp] theorem State.soft_V (s : State) : s.soft.V = some false := rfl
@[simp] theorem State.soft_BUF (s : State) : s.soft.BUF = s.BUF := rfl
@[simp] theorem State.soft_BLEN (s : State) : s.soft.BLEN = s.BLEN := rfl
@[simp] theorem State.soft_STATUS (s : State) : s.soft.STATUS = s.STATUS := rfl
@[simp] theorem State.soft_FCMD (s : State) : s.soft.FCMD = s.FCMD := rfl
@[simp] theorem State.soft_host (s : State) : s.soft.host = s.host := rfl
@[simp] theorem State.soft_readBack (s : State) : s.soft.readBack = s.readBack := rfl
@[simp] theorem State.soft_draws (s : State) : s.soft.draws = s.draws + 1 := rfl
@[simp] theorem State.soft_faulted (s : State) : s.soft.faulted = s.faulted := rfl

/-! ### `State.encoded` -/

@[simp] theorem State.encoded_cfg (s : State) (n a : ℕ) : (s.encoded n a).cfg = s.cfg := rfl
@[simp] theorem State.encoded_A (s : State) (n a : ℕ) : (s.encoded n a).A = s.A := rfl
@[simp] theorem State.encoded_B (s : State) (n a : ℕ) : (s.encoded n a).B = s.B := rfl
@[simp] theorem State.encoded_R (s : State) (n a : ℕ) : (s.encoded n a).R = s.R := rfl
@[simp] theorem State.encoded_V (s : State) (n a : ℕ) : (s.encoded n a).V = some true := rfl
@[simp] theorem State.encoded_BUF (s : State) (n a : ℕ) : (s.encoded n a).BUF = Memory.writeFrom s.BUF 0 (beBytes n a) := rfl
@[simp] theorem State.encoded_BLEN (s : State) (n a : ℕ) : (s.encoded n a).BLEN = some (BitVec.ofNat 8 n) := rfl
@[simp] theorem State.encoded_STATUS (s : State) (n a : ℕ) : (s.encoded n a).STATUS = s.STATUS := rfl
@[simp] theorem State.encoded_FCMD (s : State) (n a : ℕ) : (s.encoded n a).FCMD = s.FCMD := rfl
@[simp] theorem State.encoded_host (s : State) (n a : ℕ) : (s.encoded n a).host = s.host := rfl
@[simp] theorem State.encoded_readBack (s : State) (n a : ℕ) : (s.encoded n a).readBack = s.readBack := rfl
@[simp] theorem State.encoded_draws (s : State) (n a : ℕ) : (s.encoded n a).draws = s.draws := rfl
@[simp] theorem State.encoded_faulted (s : State) (n a : ℕ) : (s.encoded n a).faulted = s.faulted := rfl

/-! ### `State.raise` -/

@[simp] theorem State.raise_cfg (s : State) (c : Cause) (w : CmdWord) : (s.raise c w).cfg = s.cfg := rfl
@[simp] theorem State.raise_A (s : State) (c : Cause) (w : CmdWord) : (s.raise c w).A = s.A := rfl
@[simp] theorem State.raise_B (s : State) (c : Cause) (w : CmdWord) : (s.raise c w).B = s.B := rfl
@[simp] theorem State.raise_R (s : State) (c : Cause) (w : CmdWord) : (s.raise c w).R = s.R := rfl
@[simp] theorem State.raise_V (s : State) (c : Cause) (w : CmdWord) : (s.raise c w).V = s.V := rfl
@[simp] theorem State.raise_BUF (s : State) (c : Cause) (w : CmdWord) : (s.raise c w).BUF = s.BUF := rfl
@[simp] theorem State.raise_BLEN (s : State) (c : Cause) (w : CmdWord) : (s.raise c w).BLEN = s.BLEN := rfl
@[simp] theorem State.raise_STATUS (s : State) (c : Cause) (w : CmdWord) : (s.raise c w).STATUS = statusOf c := rfl
@[simp] theorem State.raise_FCMD (s : State) (c : Cause) (w : CmdWord) : (s.raise c w).FCMD = w := rfl
@[simp] theorem State.raise_host (s : State) (c : Cause) (w : CmdWord) : (s.raise c w).host = s.host := rfl
@[simp] theorem State.raise_readBack (s : State) (c : Cause) (w : CmdWord) : (s.raise c w).readBack = s.readBack := rfl
@[simp] theorem State.raise_draws (s : State) (c : Cause) (w : CmdWord) : (s.raise c w).draws = s.draws := rfl

/-! ### `State.hostReset` -/

@[simp] theorem State.hostReset_cfg (s : State) : s.hostReset.cfg = s.cfg := rfl
@[simp] theorem State.hostReset_A (s : State) : s.hostReset.A = none := rfl
@[simp] theorem State.hostReset_B (s : State) : s.hostReset.B = none := rfl
@[simp] theorem State.hostReset_R (s : State) : s.hostReset.R = none := rfl
@[simp] theorem State.hostReset_V (s : State) : s.hostReset.V = none := rfl
@[simp] theorem State.hostReset_BUF (s : State) : s.hostReset.BUF = [] := rfl
@[simp] theorem State.hostReset_BLEN (s : State) : s.hostReset.BLEN = none := rfl
@[simp] theorem State.hostReset_STATUS (s : State) : s.hostReset.STATUS = 0 := rfl
@[simp] theorem State.hostReset_FCMD (s : State) : s.hostReset.FCMD = 0 := rfl
@[simp] theorem State.hostReset_host (s : State) : s.hostReset.host = s.host := rfl
@[simp] theorem State.hostReset_readBack (s : State) : s.hostReset.readBack = s.readBack := rfl
@[simp] theorem State.hostReset_draws (s : State) : s.hostReset.draws = s.draws := rfl

/-! ### `State.withIssue` -/

@[simp] theorem State.withIssue_cfg (s : State) (w : CmdWord) : (s.withIssue w).cfg = s.cfg := rfl
@[simp] theorem State.withIssue_A (s : State) (w : CmdWord) : (s.withIssue w).A = s.A := rfl
@[simp] theorem State.withIssue_B (s : State) (w : CmdWord) : (s.withIssue w).B = s.B := rfl
@[simp] theorem State.withIssue_R (s : State) (w : CmdWord) : (s.withIssue w).R = s.R := rfl
@[simp] theorem State.withIssue_V (s : State) (w : CmdWord) : (s.withIssue w).V = s.V := rfl
@[simp] theorem State.withIssue_BUF (s : State) (w : CmdWord) : (s.withIssue w).BUF = s.BUF := rfl
@[simp] theorem State.withIssue_BLEN (s : State) (w : CmdWord) : (s.withIssue w).BLEN = s.BLEN := rfl
@[simp] theorem State.withIssue_STATUS (s : State) (w : CmdWord) : (s.withIssue w).STATUS = s.STATUS := rfl
@[simp] theorem State.withIssue_FCMD (s : State) (w : CmdWord) : (s.withIssue w).FCMD = s.FCMD := rfl
@[simp] theorem State.withIssue_host (s : State) (w : CmdWord) : (s.withIssue w).host = .issue w :: s.host := rfl
@[simp] theorem State.withIssue_readBack (s : State) (w : CmdWord) : (s.withIssue w).readBack = s.readBack := rfl
@[simp] theorem State.withIssue_draws (s : State) (w : CmdWord) : (s.withIssue w).draws = s.draws := rfl
@[simp] theorem State.withIssue_faulted (s : State) (w : CmdWord) : (s.withIssue w).faulted = s.faulted := rfl

/-! ### The status word -/

@[simp] theorem statusOf_faulted (c : Cause) : (statusOf c).getLsbD 0 = true := by cases c <;> rfl

/-- The reserved bits `[7:1]` of the status word are zero (10_state.md R32). -/
theorem statusOf_reserved (c : Cause) : (statusOf c).extractLsb' 1 7 = 0 := by cases c <;> rfl

theorem statusOf_cause (c : Cause) : (statusOf c).extractLsb' 8 8 = c.code := by cases c <;> rfl

theorem Cause.code_injective {c d : Cause} (h : c.code = d.code) : c = d := by
  cases c <;> cases d <;> first | rfl | exact absurd h (by decide)

@[simp] theorem State.raise_faulted (s : State) (c : Cause) (w : CmdWord) : (s.raise c w).faulted = true :=
  statusOf_faulted c

@[simp] theorem State.hostReset_faulted (s : State) : s.hostReset.faulted = false := by
  simp [State.faulted]

@[simp] theorem State.optional_some (s : State) (r : ℕ) : s.optional (some r) = s.result r := rfl

@[simp] theorem State.optional_none (s : State) : s.optional none = s.soft := rfl

end Sys2Proof.Machine
end

