-- ==== Sys2Proof/Laws/Command.lean ====
section
/-! SUPPORT. What performing a command can do, said once: the fault state, the checks, the operand forms, and one
inversion lemma for `exec`. -/

namespace Sys2Proof.Machine

/-! ## Performing a command -/

theorem command_faulted {i : Instr} {s : State} {body : Except Stop State} (h : s.faulted = true) :
    command i s body = .next s := by simp [command, h]

theorem command_configInvalid {i : Instr} {s : State} {body : Except Stop State} (h : s.faulted = false)
    (hc : configOk s.cfg = false) : command i s body = .next (s.raise .configInvalid (encode i)) := by
  simp [command, h, issueChecks, hc, Except.bind]

theorem command_illegal {i : Instr} {s : State} {body : Except Stop State} (h : s.faulted = false)
    (hc : configOk s.cfg = true) (hw : ¬ WellFormed s.cfg.W i) :
    command i s body = .next (s.raise .illegalCommand (encode i)) := by
  simp only [WellFormed] at hw
  simp [command, h, issueChecks, hc, hw, Except.bind]

/-- A ready command does what its body says. -/
theorem command_ready {i : Instr} {s : State} {body : Except Stop State} (h : s.Ready i) :
    command i s body = match body with
      | .ok t => .next t
      | .error (.cause c) => .next (s.raise c (encode i))
      | .error (.stuck f) => .fault f := by
  obtain ⟨h1, h2, h3⟩ := h
  have hc : issueChecks i s = .ok () := by rw [issueChecks, if_neg (by simp [h2]), if_neg (not_not.2 h3)]
  rw [command, if_neg (by simp [h1]), hc]
  rfl

/-- If a command answers a next state, either nothing happened (fault state), or it faulted, or it was ready and
completed. -/
theorem command_cases {i : Instr} {s t : State} {body : Except Stop State} (h : command i s body = .next t) :
    (s.faulted = true ∧ t = s) ∨ (s.faulted = false ∧ ∃ c, t = s.raise c (encode i)) ∨
    (s.Ready i ∧ body = .ok t) := by
  by_cases hf : s.faulted = true
  · rw [command_faulted hf] at h
    exact .inl ⟨hf, by simpa using h.symm⟩
  rw [Bool.not_eq_true] at hf
  right
  by_cases hc : configOk s.cfg = true
  · by_cases hw : WellFormed s.cfg.W i
    · have hr : s.Ready i := ⟨hf, hc, hw⟩
      rw [command_ready hr] at h
      split at h
      · exact .inr ⟨hr, by simpa using h⟩
      · exact .inl ⟨hf, _, by simpa using h.symm⟩
      · simp at h
    · rw [command_illegal hf hc hw] at h
      exact .inl ⟨hf, _, by simpa using h.symm⟩
  · rw [command_configInvalid hf (by simpa using hc)] at h
    exact .inl ⟨hf, _, by simpa using h.symm⟩

/-! ## Operand forms -/

theorem written_eq_ok {n : ℕ} {r : Option (BitVec n)} {a : ℕ} : written r = .ok a ↔ ∃ v, r = some v ∧ v.toNat = a := by
  cases r <;> simp [written]

/-- A field operand is read exactly when `A` is written and below `M` (60_exceptions.md R202 step 4). -/
theorem fieldOperand_eq_ok {s : State} {a : ℕ} :
    fieldOperand s = .ok a ↔ (∃ v, s.A = some v ∧ v.toNat = a) ∧ a < s.cfg.M := by
  rcases hA : s.A with _ | v
  · simp [fieldOperand, hA, written, Except.bind]
  · by_cases h : s.cfg.M ≤ v.toNat
    · simp only [fieldOperand, hA, written, Except.bind, h, if_true]
      simp
      omega
    · simp only [fieldOperand, hA, written, Except.bind, h, if_false, Except.ok.injEq]
      simp
      omega

theorem fieldOperands_eq_ok {s : State} {p : ℕ × ℕ} :
    fieldOperands s = .ok p ↔ (∃ v, s.A = some v ∧ v.toNat = p.1) ∧ (∃ v, s.B = some v ∧ v.toNat = p.2) ∧
      p.1 < s.cfg.M ∧ p.2 < s.cfg.M := by
  obtain ⟨x, y⟩ := p
  rcases hA : s.A with _ | v
  · simp [fieldOperands, hA, written, Except.bind]
  rcases hB : s.B with _ | w
  · simp [fieldOperands, hA, hB, written, Except.bind]
  by_cases h : s.cfg.M ≤ v.toNat
  · simp only [fieldOperands, hA, hB, written, Except.bind, h, if_true]
    simp
    omega
  by_cases h' : s.cfg.M ≤ w.toNat
  · simp only [fieldOperands, hA, hB, written, Except.bind, h, if_false, h', if_true]
    simp
    omega
  · simp only [fieldOperands, hA, hB, written, Except.bind, h, if_false, h', Except.ok.injEq, Prod.mk.injEq]
    simp
    omega

/-- A byte operand is read exactly when `BLEN` is its length and its cells are written (step 5). -/
theorem byteOperand_eq_ok {s : State} {n : ℕ} {bs : List Byte} :
    byteOperand s n = .ok bs ↔ (∃ v, s.BLEN = some v ∧ v.toNat = n) ∧ bs.length = n ∧ Holds s.BUF bs := by
  have key : (bs.length = n ∧ Holds s.BUF bs) ↔ Memory.readFrom s.BUF 0 n = some bs := by
    rw [Memory.readFrom_eq_some]
    constructor
    · rintro ⟨rfl, h⟩
      exact ⟨rfl, fun k hk => by simpa using h k hk⟩
    · rintro ⟨rfl, h⟩
      exact ⟨rfl, fun k hk => by simpa using h k hk⟩
  rw [key]
  rcases hL : s.BLEN with _ | v
  · simp [byteOperand, hL, written, Except.bind]
  by_cases h : v.toNat = n
  · simp only [byteOperand, hL, written, Except.bind, h, ne_eq, not_true, if_false]
    cases Memory.readFrom s.BUF 0 n <;> simp [h]
  · simp [byteOperand, hL, written, Except.bind, h]

theorem remrOperands_eq_ok {s : State} {p : ℕ × ℕ} :
    remrOperands s = .ok p ↔ (∃ v, s.A = some v ∧ v.toNat = p.1) ∧ (∃ v, s.B = some v ∧ v.toNat = p.2) ∧
      0 < p.2 ∧ p.2 < 2 ^ 64 ∧ p.1 / 2 ^ 64 < p.2 := by
  obtain ⟨x, y⟩ := p
  rcases hA : s.A with _ | v
  · simp [remrOperands, hA, written, Except.bind]
  rcases hB : s.B with _ | w
  · simp [remrOperands, hA, hB, written, Except.bind]
  by_cases h1 : 2 ^ 64 ≤ w.toNat
  · simp only [remrOperands, hA, hB, written, Except.bind, h1, if_true]
    simp
    omega
  by_cases h2 : w.toNat = 0
  · simp [remrOperands, hA, hB, written, Except.bind, h2]
    omega
  by_cases h3 : w.toNat ≤ v.toNat / 2 ^ 64
  · simp only [remrOperands, hA, hB, written, Except.bind, h1, h2, h3, if_true, if_false]
    simp
    omega
  · simp only [remrOperands, hA, hB, written, Except.bind, h1, h2, h3, if_false, Except.ok.injEq, Prod.mk.injEq]
    simp
    omega

/-! ## What a completed command leaves -/

/-- The states a completed command can leave: a present result, a soft outcome (SQRTR may use up a free value before
it), or an encoding in `BUF`. -/
inductive Completes (i : Instr) (s : State) : State → Prop
  | result (r : ℕ) (h : encodeCommand i = false) : Completes i s (s.result r)
  | soft (h : softCommand i = true) : Completes i s s.soft
  | drawnResult (r : ℕ) (h : rootCommand i = true) : Completes i s (State.result { s with draws := s.draws + 1 } r)
  | drawnSoft (h : rootCommand i = true) : Completes i s (State.soft { s with draws := s.draws + 1 })
  | encoded (n a : ℕ) (h : encodeCommand i = true) (hn : n ≤ 64) : Completes i s (s.encoded n a)

theorem Completes.optional {i : Instr} {s : State} (o : Option ℕ) (h : encodeCommand i = false)
    (hs : softCommand i = true) : Completes i s (s.optional o) := by
  cases o
  · exact .soft hs
  · exact .result _ h

theorem NB_le_of_configOk {c : Config} (h : configOk c = true) : c.NB ≤ 8 := by
  simp only [configOk, Bool.and_eq_true, Bool.or_eq_true, decide_eq_true_eq] at h
  simp only [Config.NB]
  omega

/-- A body that maps an operand ends in the image of one. -/
theorem map_eq_ok {α β : Type} {x : Except Stop α} {f : α → β} {t : β} (h : x.map f = .ok t) :
    ∃ a, x = .ok a ∧ f a = t := by
  cases x
  · simp [Except.map] at h
  · exact ⟨_, rfl, by simpa [Except.map] using h⟩

theorem bind_eq_ok {α β : Type} {x : Except Stop α} {f : α → Except Stop β} {t : β} (h : x.bind f = .ok t) :
    ∃ a, x = .ok a ∧ f a = .ok t := by
  cases x
  · simp [Except.bind] at h
  · exact ⟨_, rfl, by simpa [Except.bind] using h⟩

theorem checkLength_eq_ok {c : Config} {n : ℕ} {u : Unit} (h : checkLength c n = .ok u) : lengthOk c n = true := by
  by_contra hn
  simp [checkLength, hn] at h

/-- INVERSION of `exec`: a next state is the old one (in the fault state), a fault entry, or a completed command. -/
theorem exec_cases {i : Instr} {s t : State} (h : exec i s = .next t) :
    (s.faulted = true ∧ t = s) ∨ (s.faulted = false ∧ ∃ c, t = s.raise c (encode i)) ∨
    (s.Ready i ∧ Completes i s t) := by
  have key : ∀ body : Except Stop State, command i s body = .next t →
      (s.Ready i → body = .ok t → Completes i s t) →
      (s.faulted = true ∧ t = s) ∨ (s.faulted = false ∧ ∃ c, t = s.raise c (encode i)) ∨
      (s.Ready i ∧ Completes i s t) := by
    intro body hb hk
    rcases command_cases hb with h | h | ⟨hr, h⟩
    · exact .inl h
    · exact .inr (.inl h)
    · exact .inr (.inr ⟨hr, hk hr h⟩)
  cases i with
  | add w => exact key _ h fun _ hb => by obtain ⟨p, -, rfl⟩ := map_eq_ok hb; exact .result _ rfl
  | sub w => exact key _ h fun _ hb => by obtain ⟨p, -, rfl⟩ := map_eq_ok hb; exact .result _ rfl
  | neg w => exact key _ h fun _ hb => by obtain ⟨p, -, rfl⟩ := map_eq_ok hb; exact .result _ rfl
  | dbl w => exact key _ h fun _ hb => by obtain ⟨p, -, rfl⟩ := map_eq_ok hb; exact .result _ rfl
  | mul w => exact key _ h fun _ hb => by obtain ⟨p, -, rfl⟩ := map_eq_ok hb; exact .result _ rfl
  | sqr w => exact key _ h fun _ hb => by obtain ⟨p, -, rfl⟩ := map_eq_ok hb; exact .result _ rfl
  | redw w =>
    exact key _ h fun _ hb => by
      obtain ⟨-, -, hb⟩ := bind_eq_ok hb
      obtain ⟨p, -, rfl⟩ := map_eq_ok hb; exact .result _ rfl
  | rednz w =>
    exact key _ h fun _ hb => by
      obtain ⟨-, -, hb⟩ := bind_eq_ok hb
      obtain ⟨p, -, rfl⟩ := map_eq_ok hb; exact .result _ rfl
  | inv w => exact key _ h fun _ hb => by obtain ⟨p, -, rfl⟩ := map_eq_ok hb; exact .optional _ rfl rfl
  | sqrt w =>
    exact key _ h fun _ hb => by
      obtain ⟨-, -, hb⟩ := bind_eq_ok hb
      obtain ⟨p, -, rfl⟩ := map_eq_ok hb; exact .optional _ rfl rfl
  | sqrtr w =>
    refine key _ h fun _ hb => ?_
    obtain ⟨-, -, hb⟩ := bind_eq_ok hb
    obtain ⟨p, -, rfl⟩ := map_eq_ok hb
    simp only [ratioInverse]
    split
    · exact .optional _ rfl rfl
    · split
      · exact .optional _ rfl rfl
      · generalize sqrtRatio _ _ _ _ _ = o
        cases o
        · exact .drawnSoft rfl
        · exact .drawnResult _ rfl
  | enc w =>
    exact key _ h fun hr hb => by
      obtain ⟨a, -, rfl⟩ := map_eq_ok hb
      exact .encoded _ _ rfl (by have := NB_le_of_configOk hr.2.1; omega)
  | encEnv w =>
    exact key _ h fun hr hb => by
      obtain ⟨u, hu, hb⟩ := bind_eq_ok hb
      obtain ⟨a, -, rfl⟩ := map_eq_ok hb
      have := checkLength_eq_ok hu
      simp only [lengthOk, Bool.and_eq_true, decide_eq_true_eq] at this
      exact .encoded _ _ rfl this.2
  | dec w => exact key _ h fun _ hb => by obtain ⟨p, -, rfl⟩ := map_eq_ok hb; exact .optional _ rfl rfl
  | decEnv w =>
    exact key _ h fun _ hb => by
      obtain ⟨-, -, hb⟩ := bind_eq_ok hb
      obtain ⟨p, -, rfl⟩ := map_eq_ok hb; exact .optional _ rfl rfl
  | isodd w => exact key _ h fun _ hb => by obtain ⟨p, -, rfl⟩ := map_eq_ok hb; exact .result _ rfl
  | remr => exact key _ h fun _ hb => by obtain ⟨p, -, rfl⟩ := map_eq_ok hb; exact .result _ rfl

end Sys2Proof.Machine
end

