-- ==== Sys2Proof/Laws/Checks.lean ====
section
/-! SUPPORT. The common checks of Safety.lean against the machine's: when the spec's own order finds a failing check,
the operand forms end in that cause; and the bounds `CONFIG_OK` gives. -/

namespace Sys2Proof.Machine

theorem configOk_bounds {c : Config} (h : configOk c = true) : 2 ≤ c.M ∧ c.M < 2 ^ c.W ∧ c.W ≤ 64 := by
  simp only [configOk, Bool.and_eq_true, Bool.or_eq_true, decide_eq_true_eq] at h
  have : 0 < 2 ^ c.W := by positivity
  omega

theorem configOk_NB {c : Config} (h : configOk c = true) : c.W = 8 * c.NB ∧ 2 ≤ c.NB ∧ c.NB ≤ 8 := by
  simp only [configOk, Bool.and_eq_true, Bool.or_eq_true, decide_eq_true_eq] at h
  simp only [Config.NB]
  omega

/-- A result that fits `W` bits is presented unchanged. -/
theorem result_eq_present {s : State} {r : ℕ} (h : r < 2 ^ s.cfg.W) : s.result r = s.present r := by
  simp [State.result, Nat.mod_eq_of_lt h]

theorem hasFields (i : Instr) : HasFields i i.opc i.env := by
  cases i with
  | remr => exact ⟨rfl, rfl, rfl, rfl⟩
  | _ w => cases w <;> exact ⟨rfl, rfl, rfl, rfl⟩

/-- The product of two field elements meets the reducer's precondition (41_mul_reduce.md R122). -/
theorem product_high {a b M W : ℕ} (hM : M < 2 ^ W) (ha : a < M) (hb : b < M) : a * b / 2 ^ W < M := by
  rw [Nat.div_lt_iff_lt_mul (by positivity)]
  nlinarith

/-! ## Failing checks -/

theorem fieldOperand_fails {i : Instr} {s : State} {c : Cause} (hb : binaryField i = false)
    (h : fieldFailure i s = some c) : fieldOperand s = .error (.cause c) := by
  unfold fieldFailure at h
  rcases hA : s.A with _ | a
  · obtain rfl : Cause.unwrittenOperand = c := by simpa [hA] using h
    simp [fieldOperand, hA, written, Except.bind]
  · simp only [hA, hb, atLeast, reduceCtorEq, if_false, Bool.false_eq_true, false_and, decide_eq_true_eq] at h
    split_ifs at h with h1
    obtain rfl : Cause.operandRange = c := by simpa using h
    simp [fieldOperand, hA, written, Except.bind, h1]

theorem fieldOperands_fails {i : Instr} {s : State} {c : Cause} (hb : binaryField i = true)
    (h : fieldFailure i s = some c) : fieldOperands s = .error (.cause c) := by
  unfold fieldFailure at h
  rcases hA : s.A with _ | a
  · obtain rfl : Cause.unwrittenOperand = c := by simpa [hA] using h
    simp [fieldOperands, hA, written, Except.bind]
  rcases hB : s.B with _ | b
  · obtain rfl : Cause.unwrittenOperand = c := by simpa [hA, hb, hB] using h
    simp [fieldOperands, hA, hB, written, Except.bind]
  · simp only [hA, hb, hB, atLeast, reduceCtorEq, if_false, and_false, decide_eq_true_eq, true_and] at h
    split_ifs at h with h1 h2
    · obtain rfl : Cause.operandRange = c := by simpa using h
      simp [fieldOperands, hA, hB, written, Except.bind, h1]
    · obtain rfl : Cause.operandRange = c := by simpa using h
      simp [fieldOperands, hA, hB, written, Except.bind, h1, h2]

theorem byteOperand_fails {s : State} {n : ℕ} {c : Cause} (h : byteFailure n s = some c) :
    byteOperand s n = .error (.cause c) := by
  unfold byteFailure at h
  rcases hL : s.BLEN with _ | l
  · obtain rfl : Cause.unwrittenOperand = c := by simpa [hL] using h
    simp [byteOperand, hL, written, Except.bind]
  by_cases hl : l.toNat = n
  · simp only [hL, reduceCtorEq, if_false, Option.map_some, ne_eq, hl, not_true] at h
    split_ifs at h with h1
    obtain rfl : Cause.unwrittenOperand = c := by simpa using h
    have : Memory.readFrom s.BUF 0 n = none := Memory.readFrom_eq_none.2 (by simpa using h1)
    simp [byteOperand, hL, written, Except.bind, hl, this]
  · obtain rfl : Cause.lengthMismatch = c := by simpa [hL, hl] using h
    simp [byteOperand, hL, written, Except.bind, hl]

theorem remrOperands_fails {s : State} {c : Cause} (h : remrFailure s = some c) :
    remrOperands s = .error (.cause c) := by
  unfold remrFailure at h
  rcases hA : s.A with _ | a
  · obtain rfl : Cause.unwrittenOperand = c := by simpa [hA] using h
    simp [remrOperands, hA, written, Except.bind]
  rcases hB : s.B with _ | b
  · obtain rfl : Cause.unwrittenOperand = c := by simpa [hA, hB] using h
    simp [remrOperands, hA, hB, written, Except.bind]
  have e0 : b = 0 ↔ b.toNat = 0 := by rw [← BitVec.toNat_inj]; rfl
  simp only [hA, hB, atLeast, quotientTooWide, reduceCtorEq, if_false, decide_eq_true_eq, Option.some.injEq, e0] at h
  split_ifs at h with h1 h2 h3
  · obtain rfl : Cause.operandRange = c := by simpa using h
    simp only [remrOperands, hA, hB, written, Except.bind, h1, if_true]
  · obtain rfl : Cause.divisorZero = c := by simpa using h
    simp [remrOperands, hA, hB, written, Except.bind, h2]
  · obtain rfl : Cause.dividendRange = c := by simpa using h
    simp only [remrOperands, hA, hB, written, Except.bind, h1, h2, h3, if_true, if_false]

/-- A ready command whose first failing check of steps 3 to 6 is `c` raises `c`; the two byte-length parameters need to
be legal for the commands that use them (log entry 9). -/
theorem exec_raises {i : Instr} {s : State} {c : Cause} (hr : s.Ready i)
    (hred : (∃ w, i = .redw w ∨ i = .rednz w) → lengthOk s.cfg s.cfg.RED_BYTES = true)
    (henv : (∃ w, i = .encEnv w ∨ i = .decEnv w) → lengthOk s.cfg s.cfg.ENV_BYTES = true)
    (h : operandFailure i s = some c) : exec i s = .next (s.raise c (encode i)) := by
  have field : ∀ {f : ℕ → State}, binaryField i = false → fieldFailure i s = some c →
      command i s ((fieldOperand s).map f) = .next (s.raise c (encode i)) := fun hb h =>
    (command_ready hr).trans (by rw [fieldOperand_fails hb h]; rfl)
  have fields : ∀ {f : ℕ × ℕ → State}, binaryField i = true → fieldFailure i s = some c →
      command i s ((fieldOperands s).map f) = .next (s.raise c (encode i)) := fun hb h =>
    (command_ready hr).trans (by rw [fieldOperands_fails hb h]; rfl)
  have bad : s.cfg.M % 4 ≠ 3 → checkModulus s.cfg = .error (.cause .unsupportedModulus) := by
    intro h; simp [checkModulus, h]
  have good : ¬ s.cfg.M % 4 ≠ 3 → checkModulus s.cfg = .ok () := by
    intro h; rw [checkModulus, if_neg h]
  have len : ∀ {n}, lengthOk s.cfg n = true → checkLength s.cfg n = .ok () := by
    intro n h; simp [checkLength, h]
  unfold operandFailure at h
  cases i <;> simp only [rootCommand, fieldCommand, Bool.false_eq_true, false_and, true_and, if_false, if_true,
    reduceCtorEq, byteLength] at h
  case add w | sub w | mul w => exact fields rfl h
  case neg w | dbl w | sqr w | inv w | enc w | isodd w => exact field rfl h
  case remr => exact (command_ready hr).trans (by rw [remrOperands_fails h]; rfl)
  case dec w => exact (command_ready hr).trans (by rw [byteOperand_fails h]; rfl)
  case redw w => exact (command_ready hr).trans (by rw [len (hred ⟨w, .inl rfl⟩), byteOperand_fails h]; rfl)
  case rednz w => exact (command_ready hr).trans (by rw [len (hred ⟨w, .inr rfl⟩), byteOperand_fails h]; rfl)
  case encEnv w => exact (command_ready hr).trans (by rw [len (henv ⟨w, .inl rfl⟩), fieldOperand_fails rfl h]; rfl)
  case decEnv w => exact (command_ready hr).trans (by rw [len (henv ⟨w, .inr rfl⟩), byteOperand_fails h]; rfl)
  case sqrt w =>
    split_ifs at h with hh
    · obtain rfl : Cause.unsupportedModulus = c := by simpa using h
      exact (command_ready hr).trans (by rw [bad hh]; rfl)
    · exact (command_ready hr).trans (by rw [good hh, fieldOperand_fails rfl h]; rfl)
  case sqrtr w =>
    split_ifs at h with hh
    · obtain rfl : Cause.unsupportedModulus = c := by simpa using h
      exact (command_ready hr).trans (by rw [bad hh]; rfl)
    · exact (command_ready hr).trans (by rw [good hh, fieldOperands_fails rfl h]; rfl)

end Sys2Proof.Machine
end

