-- ==== Sys2Proof/Laws/Constants.lean ====
section
/-! SUPPORT. What the published registers hold: the defined value where the register can hold it, otherwise something of
its width. -/

namespace Sys2Proof.Machine

@[simp] theorem published_some {c : Config} {k bound v : ℕ} (h : v < bound) : published c k bound (some v) = v := by
  simp [published, h]

theorem published_lt {c : Config} {k bound : ℕ} {v : Option ℕ} (h : 0 < bound) : published c k bound v < bound := by
  unfold published openValue
  split
  · split_ifs
    · assumption
    · exact Nat.mod_lt _ h
  · exact Nat.mod_lt _ h

@[simp] theorem recordValue_of_mem {c : Config} {v : ℕ} (h : 1 ≤ c.M ∧ c.M < 2 ^ 64) : recordValue c v = some v := by
  rw [recordValue, if_pos h]

end Sys2Proof.Machine
end

