-- ==== Sys2Proof/Laws/PerInstr.lean ====
section
/-! SUPPORT. Statements about every command as syntax, one lemma per constructor. -/

namespace Sys2Proof.Laws.EncodedFields

/-- The encoder puts each field of 30_encoding.md R81 where the spec has it: `OPC` from the command (R82), `WSEL` from
its width (R83), `ENV` from its form (R84), reserved bits zero (R85). -/
def Statement (i : Instr) : Prop :=
  opcOf (encode i) = i.opc ∧ wselOf (encode i) = wselCode i.width ∧ envOf (encode i) = i.env ∧
    reservedOf (encode i) = 0

theorem add (w : Width) : Statement (.add w) := by
  cases w <;> exact ⟨rfl, rfl, rfl, rfl⟩

theorem sub (w : Width) : Statement (.sub w) := by
  cases w <;> exact ⟨rfl, rfl, rfl, rfl⟩

theorem neg (w : Width) : Statement (.neg w) := by
  cases w <;> exact ⟨rfl, rfl, rfl, rfl⟩

theorem dbl (w : Width) : Statement (.dbl w) := by
  cases w <;> exact ⟨rfl, rfl, rfl, rfl⟩

theorem mul (w : Width) : Statement (.mul w) := by
  cases w <;> exact ⟨rfl, rfl, rfl, rfl⟩

theorem sqr (w : Width) : Statement (.sqr w) := by
  cases w <;> exact ⟨rfl, rfl, rfl, rfl⟩

theorem redw (w : Width) : Statement (.redw w) := by
  cases w <;> exact ⟨rfl, rfl, rfl, rfl⟩

theorem rednz (w : Width) : Statement (.rednz w) := by
  cases w <;> exact ⟨rfl, rfl, rfl, rfl⟩

theorem inv (w : Width) : Statement (.inv w) := by
  cases w <;> exact ⟨rfl, rfl, rfl, rfl⟩

theorem sqrt (w : Width) : Statement (.sqrt w) := by
  cases w <;> exact ⟨rfl, rfl, rfl, rfl⟩

theorem sqrtr (w : Width) : Statement (.sqrtr w) := by
  cases w <;> exact ⟨rfl, rfl, rfl, rfl⟩

theorem enc (w : Width) : Statement (.enc w) := by
  cases w <;> exact ⟨rfl, rfl, rfl, rfl⟩

theorem encEnv (w : Width) : Statement (.encEnv w) := by
  cases w <;> exact ⟨rfl, rfl, rfl, rfl⟩

theorem dec (w : Width) : Statement (.dec w) := by
  cases w <;> exact ⟨rfl, rfl, rfl, rfl⟩

theorem decEnv (w : Width) : Statement (.decEnv w) := by
  cases w <;> exact ⟨rfl, rfl, rfl, rfl⟩

theorem isodd (w : Width) : Statement (.isodd w) := by
  cases w <;> exact ⟨rfl, rfl, rfl, rfl⟩

theorem remr : Statement .remr := ⟨rfl, rfl, rfl, rfl⟩

end Sys2Proof.Laws.EncodedFields
end

