-- ==== Sys2Proof/Laws/Step.lean ====
section
/-! SUPPORT. What one step can do, said once: idle, a host action, or the performance of an issued word. -/

namespace Sys2Proof.Machine

/-- A step whose next action issues a word performs it. -/
theorem step_issue {s : State} {w : CmdWord} {rest : List HostAction} (h : s.host = .issue w :: rest) :
    step s = issue w { s with host := rest } := by
  simp [step, stepAction, h, perform]

/-- A step whose next action is not an issue has that action's effect. -/
theorem step_hostEffect {s : State} {act : HostAction} {rest : List HostAction} (h : s.host = act :: rest)
    (ha : ∀ w, act ≠ .issue w) : step s = .next (hostEffect { s with host := rest } act) := by
  simp only [step, stepAction, h]
  cases act <;> first | rfl | exact absurd rfl (ha _)

/-- INVERSION of `step`. -/
theorem step_cases {s t : State} (h : step s = .next t) :
    (s.host = [] ∧ t = s) ∨
    (∃ w rest, s.host = .issue w :: rest ∧ issue w { s with host := rest } = .next t) ∨
    (∃ act rest, s.host = act :: rest ∧ (∀ w, act ≠ .issue w) ∧ t = hostEffect { s with host := rest } act) := by
  cases hh : s.host with
  | nil => exact .inl ⟨rfl, by simpa [step, stepAction, hh, eq_comm] using h⟩
  | cons act rest =>
    by_cases ha : ∃ w, act = .issue w
    · obtain ⟨w, rfl⟩ := ha
      exact .inr (.inl ⟨w, rest, rfl, by rw [← step_issue hh]; exact h⟩)
    · have ha' : ∀ w, act ≠ .issue w := fun w hw => ha ⟨w, hw⟩
      rw [step_hostEffect hh ha'] at h
      exact .inr (.inr ⟨act, rest, rfl, ha', by simpa using h.symm⟩)

/-- INVERSION of `issue`: a decoded command is performed; a refused word does nothing in the fault state, and faults
otherwise. -/
theorem issue_cases {w : CmdWord} {s t : State} (h : issue w s = .next t) :
    (∃ i, decode w = .ok i ∧ exec i s = .next t) ∨
    ((∃ e, decode w = .error e) ∧
      ((s.faulted = true ∧ t = s) ∨ (s.faulted = false ∧ ∃ c, t = s.raise c w))) := by
  unfold issue at h
  split at h
  · exact .inl ⟨_, ‹_›, h⟩
  · refine .inr ⟨⟨_, ‹_›⟩, ?_⟩
    unfold issueIllegal at h
    split_ifs at h with h1 h2
    · exact .inl ⟨h1, by simpa using h.symm⟩
    · exact .inr ⟨by simpa using h1, _, by simpa using h.symm⟩
    · exact .inr ⟨by simpa using h1, _, by simpa using h.symm⟩

end Sys2Proof.Machine
end

