-- ==== Sys2Proof/Tests/Slice0.lean ====
section
/-! SUPPORT. Tests. The expected results are those of 95_test_vectors.md (the vector's number stands in the comment),
the words are written out from 30_encoding.md, and each statement that has hypotheses has a witness that meets them. -/

namespace Sys2Proof.Tests

open Sys2Proof Sys2Proof.Machine

/-! ## Small states -/

/-- `MFC64` (00_scope.md R6). DESIGN CHOICE (log entry 2): `ENV_BYTES`, `GENERATOR` and `MODULUS_STR` are OPEN there; the
32, 3 and the empty text are this test's own and no statement rests on them. -/
def mfc64 : Config where
  W := 64
  M := 0xfffffffffffffc7f
  ENV_BYTES := 32
  RED_BYTES := 16
  GENERATOR := 3
  MODULUS_STR := []

/-- A small 16-bit instance with modulus `M`; for the faults of other moduli. -/
def small (M : Nat) : Config := { Config.mfc16 with M := M }

/-- The 32-bit instance with the example modulus of 95_test_vectors.md. DESIGN CHOICE (log entry 2): `ENV_BYTES`,
`GENERATOR` and `MODULUS_STR` are OPEN; the 4, 2 and the empty text are this test's own and no statement rests on
them. -/
def mfc32 : Config where
  W := 32
  M := 0xfffffffb
  ENV_BYTES := 4
  RED_BYTES := 8
  GENERATOR := 2
  MODULUS_STR := []

/-- After reset and the host's writes to `A` and `B`. -/
def onAB (c : Config) (a b : BitVec 128) : State := { State.resetOf c with A := some a, B := some b }

/-- After reset and a `WRBUF`. -/
def onBuf (c : Config) (bs : List Byte) : State :=
  { State.resetOf c with BUF := Memory.writeFrom [] 0 bs, BLEN := some (BitVec.ofNat 8 bs.length) }

/-- `s` in the fault state of vector A5. -/
def inFault (s : State) : State := s.raise .operandRange 1

/-- `R`, `V` and `STATUS` after a command. -/
def gives (r : Result) : Option (Option (BitVec 64) × Option Bool × BitVec 16) :=
  match r with
  | .next t => some (t.R, t.V, t.STATUS)
  | .fault _ | .refused _ => none

/-- `V`, `STATUS` and `FCMD` after a command: for the vectors that say nothing about `R`. -/
def endsIn (r : Result) : Option (Option Bool × BitVec 16 × CmdWord) :=
  match r with
  | .next t => some (t.V, t.STATUS, t.FCMD)
  | .fault _ | .refused _ => none

/-- `BUF`, `BLEN` and `R` after a command. -/
def encodes (r : Result) : Option (Memory × Option (BitVec 8) × Option (BitVec 64)) :=
  match r with
  | .next t => some (t.BUF, t.BLEN, t.R)
  | .fault _ | .refused _ => none

/-! ## Well-formedness: an ill-formed command for the one check, in both directions, and REMR -/

theorem test_wellFormed_refuses_another_width :
    ¬ WellFormed 64 (.add .w16) ∧ ¬ WellFormed 16 (.enc .w32) ∧ ¬ WellFormed 32 (.decEnv .w64) := by decide

theorem test_wellFormed_refuses_remr_below_64 : ¬ WellFormed 16 .remr ∧ ¬ WellFormed 32 .remr ∧ WellFormed 64 .remr := by
  decide

theorem test_wellFormed_accepts_its_width :
    WellFormed 16 (.add .w16) ∧ WellFormed 32 (.inv .w32) ∧ WellFormed 64 (.sqrtr .w64) := by decide

/-! ## Decoding: reserved [31:11], ENV [10], WSEL [9:8], OPC [7:0] -/

theorem test_decode_addition :
    decode 0b000000000000000000000_0_00_00000001#32 = .ok (.add .w16) ∧
    decode 0b000000000000000000000_0_01_00000010#32 = .ok (.sub .w32) ∧
    decode 0b000000000000000000000_0_10_00000011#32 = .ok (.neg .w64) ∧
    decode 0b000000000000000000000_0_00_00000100#32 = .ok (.dbl .w16) := by decide

theorem test_decode_multiplication :
    decode 0b000000000000000000000_0_10_00000101#32 = .ok (.mul .w64) ∧
    decode 0b000000000000000000000_0_01_00000110#32 = .ok (.sqr .w32) ∧
    decode 0b000000000000000000000_0_00_00000111#32 = .ok (.redw .w16) ∧
    decode 0b000000000000000000000_0_10_00001000#32 = .ok (.rednz .w64) ∧
    decode 0b000000000000000000000_0_10_00001111#32 = .ok .remr := by decide

theorem test_decode_inverse_and_roots :
    decode 0b000000000000000000000_0_00_00001001#32 = .ok (.inv .w16) ∧
    decode 0b000000000000000000000_0_01_00001010#32 = .ok (.sqrt .w32) ∧
    decode 0b000000000000000000000_0_10_00001011#32 = .ok (.sqrtr .w64) := by decide

theorem test_decode_codec :
    decode 0b000000000000000000000_0_00_00001100#32 = .ok (.enc .w16) ∧
    decode 0b000000000000000000000_1_10_00001100#32 = .ok (.encEnv .w64) ∧
    decode 0b000000000000000000000_0_01_00001101#32 = .ok (.dec .w32) ∧
    decode 0b000000000000000000000_1_00_00001101#32 = .ok (.decEnv .w16) ∧
    decode 0b000000000000000000000_0_00_00001110#32 = .ok (.isodd .w16) := by decide

/-- Vectors X1 to X4, K17, M30 and the top reserved bit. -/
theorem test_decode_rejects :
    decode 0x00000000 = .error .opcode ∧ decode 0x00000010 = .error .opcode ∧ decode 0x00000301 = .error .wsel ∧
    decode 0x00000801 = .error .reserved ∧ decode 0x80000001 = .error .reserved ∧ decode 0x0000040E = .error .env ∧
    decode 0x0000000F = .error .remrWidth ∧ decode 0x0000060F = .error .env := by decide

theorem test_encode_words :
    encode (.add .w16) = 0x00000001 ∧ encode (.sub .w64) = 0x00000202 ∧ encode (.encEnv .w16) = 0x0000040C ∧
    encode .remr = 0x0000020F := by decide

/-- The word's first byte is its least significant one (30_encoding.md R81 as the table numbers it). -/
theorem test_decodeTableWord : decodeTableWord 32 0x0000020F = some .remr ∧ decodeTableWord 32 0 = none := by decide

/-! ## ADD, DBL, SUB, NEG -/

/-- A1, A3. -/
theorem test_add : gives (exec (.add .w16) (onAB .mfc16 0xffa6 1)) = some (some 0, some true, 0) ∧
    gives (exec (.add .w16) (onAB .mfc16 0xffa6 0xffa6)) = some (some 0xffa5, some true, 0) := by decide +kernel

/-- A18, A22. -/
theorem test_add_wide : gives (exec (.add .w64) (onAB mfc64 0xfffffffffffffc7e 0xfffffffffffffc7e)) =
      some (some 0xfffffffffffffc7d, some true, 0) ∧
    gives (exec (.add .w32) (onAB mfc32 0xfffffffa 5)) = some (some 4, some true, 0) := by decide +kernel

/-- A7, A8. -/
theorem test_dbl : gives (exec (.dbl .w16) (onAB .mfc16 0x8000 0)) = some (some 0x0059, some true, 0) ∧
    gives (exec (.dbl .w16) (onAB .mfc16 0xffa6 0)) = some (some 0xffa5, some true, 0) := by decide +kernel

/-- A9, A11. -/
theorem test_sub : gives (exec (.sub .w16) (onAB .mfc16 0 1)) = some (some 0xffa6, some true, 0) ∧
    gives (exec (.sub .w16) (onAB .mfc16 0 0xffa6)) = some (some 1, some true, 0) := by decide +kernel

/-- A10, A23. -/
theorem test_sub_other : gives (exec (.sub .w16) (onAB .mfc16 5 3)) = some (some 2, some true, 0) ∧
    gives (exec (.sub .w32) (onAB mfc32 3 5)) = some (some 0xfffffff9, some true, 0) := by decide +kernel

/-- A13, A16. -/
theorem test_neg : gives (exec (.neg .w16) (onAB .mfc16 0 0)) = some (some 0, some true, 0) ∧
    gives (exec (.neg .w16) (onAB .mfc16 0x1234 0)) = some (some 0xed73, some true, 0) := by decide +kernel

/-! ## MUL, SQR, REDW, REDNZ, REMR -/

/-- M2, M5, M6, M9. -/
theorem test_mul : gives (exec (.mul .w16) (onAB .mfc16 0x1234 0x5678)) = some (some 0x2448, some true, 0) ∧
    gives (exec (.mul .w64) (onAB mfc64 0xfffffffffffffc7e 0xfffffffffffffc7e)) = some (some 1, some true, 0) ∧
    gives (exec (.mul .w64) (onAB mfc64 0x123456789abcdef0 0xfedcba9876543210)) =
      some (some 0xa43d4efb64ad96e1, some true, 0) ∧
    gives (exec (.mul .w32) (onAB mfc32 0x12345678 0x9abcdef0)) = some (some 0x5b31b406, some true, 0) := by
  decide +kernel

/-- M4, M7. -/
theorem test_sqr : gives (exec (.sqr .w16) (onAB .mfc16 0xffa6 0)) = some (some 1, some true, 0) ∧
    gives (exec (.sqr .w64) (onAB mfc64 0x8000000000000000 0)) = some (some 0x40000000000310e0, some true, 0) := by
  decide +kernel

/-- M10, M15. -/
theorem test_redw : gives (exec (.redw .w16) (onBuf .mfc16 [0xff, 0xff, 0xff, 0xff])) =
      some (some 0x1ef0, some true, 0) ∧
    gives (exec (.redw .w64) (onBuf mfc64 (List.replicate 16 0xff))) = some (some 0x00000000000c4700, some true, 0) := by
  decide +kernel

/-- M17, M18. -/
theorem test_rednz : gives (exec (.rednz .w16) (onBuf .mfc16 [0, 0, 0xff, 0xa6])) = some (some 1, some true, 0) ∧
    gives (exec (.rednz .w16) (onBuf .mfc16 [0, 0, 0xff, 0xa5])) = some (some 0xffa6, some true, 0) := by decide +kernel

/-- M24, M25. -/
theorem test_remr : gives (exec .remr (onAB mfc64 0x7fffffffffffffffffffffffffffffff 0x8000000000000001)) =
      some (some 1, some true, 0) ∧
    gives (exec .remr (onAB mfc64 0xfffffffffffffc7effffffffffffffff 0xfffffffffffffc7f)) =
      some (some 0xfffffffffffffc7e, some true, 0) := by decide +kernel

/-- M27 to M29. -/
theorem test_remr_faults : endsIn (exec .remr (onAB mfc64 5 0)) = some (none, 0x0701, 0x0000020F) ∧
    endsIn (exec .remr (onAB mfc64 0x30000000000000000 3)) = some (none, 0x0801, 0x0000020F) ∧
    endsIn (exec .remr (onAB mfc64 5 0x10000000000000000)) = some (none, 0x0301, 0x0000020F) := by decide +kernel

/-! ## INV, SQRT, SQRTR -/

/-- I5, I9, I10. -/
theorem test_inv : gives (exec (.inv .w16) (onAB .mfc16 5 0)) = some (some 0x6643, some true, 0) ∧
    gives (exec (.inv .w64) (onAB mfc64 0x0123456789abcdef 0)) = some (some 0x0063e7063e7063e6, some true, 0) ∧
    gives (exec (.inv .w32) (onAB mfc32 3 0)) = some (some 0x55555554, some true, 0) := by decide +kernel

/-- I1. -/
theorem test_inv_of_zero : endsIn (exec (.inv .w16) (onAB .mfc16 0 0)) = some (some false, 0, 0) := by decide +kernel

/-- S5, S10, S13. -/
theorem test_sqrt : gives (exec (.sqrt .w16) (onAB .mfc16 2 0)) = some (some 0x194d, some true, 0) ∧
    gives (exec (.sqrt .w64) (onAB mfc64 2 0)) = some (some 0x982f5ffa8bddad1d, some true, 0) ∧
    gives (exec (.sqrt .w32) (onAB mfc32 3 0)) = some (some 0x0f553bf0, some true, 0) := by decide +kernel

/-- S7, S12, S16. -/
theorem test_sqrt_without_root : endsIn (exec (.sqrt .w16) (onAB .mfc16 0xffa6 0)) = some (some false, 0, 0) ∧
    endsIn (exec (.sqrt .w64) (onAB mfc64 3 0)) = some (some false, 0, 0) ∧
    endsIn (exec (.sqrt .w16) (onAB (small 0xfff1) 4 0)) = some (none, 0x0601, 0x0000000A) := by decide +kernel

/-- Q6, Q9, Q2. -/
theorem test_sqrtr : gives (exec (.sqrtr .w16) (onAB .mfc16 1 4)) = some (some 0x7fd4, some true, 0) ∧
    gives (exec (.sqrtr .w16) (onAB .mfc16 3 1)) = some (some 0x9dda, some true, 0) ∧
    gives (exec (.sqrtr .w16) (onAB .mfc16 0 0)) = some (some 0, some true, 0) := by decide +kernel

/-- Q3, Q5. -/
theorem test_sqrtr_without_root : endsIn (exec (.sqrtr .w16) (onAB .mfc16 1 0)) = some (some false, 0, 0) ∧
    endsIn (exec (.sqrtr .w16) (onAB .mfc16 0xffa6 1)) = some (some false, 0, 0) := by decide +kernel

/-! ## ENC, DEC, ISODD -/

/-- K1; `R` keeps its value. -/
theorem test_enc : encodes (exec (.enc .w16) { onAB .mfc16 0x1234 0 with R := some 7 }) =
    some ([(0, 0x12), (1, 0x34)], some 2, some 7) := by decide +kernel

/-- K2. -/
theorem test_encEnv : encodes (exec (.encEnv .w16) (onAB .mfc16 0x1234 0)) =
    some ([(0, 0), (1, 0), (2, 0x12), (3, 0x34)], some 4, none) := by decide +kernel

/-- K6, K7, K9. -/
theorem test_dec : gives (exec (.dec .w16) (onBuf .mfc16 [0xff, 0xa6])) = some (some 0xffa6, some true, 0) ∧
    endsIn (exec (.dec .w16) (onBuf .mfc16 [0xff, 0xa7])) = some (some false, 0, 0) ∧
    endsIn (exec (.dec .w16) (onBuf .mfc16 [0, 0, 0x12, 0x34])) = some (none, 0x0401, 0x0000000D) := by decide +kernel

/-- K10 to K13. -/
theorem test_decEnv : gives (exec (.decEnv .w16) (onBuf .mfc16 [0, 0, 0, 5])) = some (some 5, some true, 0) ∧
    endsIn (exec (.decEnv .w16) (onBuf .mfc16 [0, 1, 0, 5])) = some (some false, 0, 0) ∧
    endsIn (exec (.decEnv .w16) (onBuf .mfc16 [0, 0, 0xff, 0xa7])) = some (some false, 0, 0) ∧
    endsIn (exec (.decEnv .w16) (onBuf .mfc16 [0x12, 0x34])) = some (none, 0x0401, 0x0000040D) := by decide +kernel

/-- K14, K15. -/
theorem test_isodd : gives (exec (.isodd .w16) (onAB .mfc16 5 0)) = some (some 1, some true, 0) ∧
    gives (exec (.isodd .w16) (onAB .mfc16 0xffa6 0)) = some (some 0, some true, 0) := by decide +kernel

/-! ## Faults, configuration and the host -/

/-- A5, A6, A24 (through a step), M13. -/
theorem test_faults : endsIn (exec (.add .w16) (onAB .mfc16 0xffa7 0)) = some (none, 0x0301, 1) ∧
    endsIn (exec (.add .w16) { State.reset with A := some 1 }) = some (none, 0x0201, 1) ∧
    endsIn (step ((onAB .mfc16 1 1).withFetchWord 32 0x0201)) = some (none, 0x0101, 0x0201) ∧
    endsIn (exec (.redw .w16) { onBuf .mfc16 [1, 2, 3] with BLEN := some 4 }) = some (none, 0x0201, 7) := by
  decide +kernel

/-- X6 to X8. -/
theorem test_config_and_fault_state :
    endsIn (step ((onAB (small 0x10000) 1 1).withFetchWord 32 1)) = some (none, 0x0501, 1) ∧
    endsIn (step ((onAB (small 1) 1 1).withFetchWord 32 0xFFFFFFFF)) = some (none, 0x0501, 0xFFFFFFFF) ∧
    endsIn (step ((inFault (onAB .mfc16 1 1)).withFetchWord 32 1)) = some (none, 0x0301, 1) := by decide +kernel

/-- The record of `MFC64` and the constants of both named instances (10_state.md R24, R25). -/
theorem test_published_values :
    hostRead (State.resetOf mfc64) (.ro .CFG_SHIFT) = .number 0 ∧
    hostRead (State.resetOf mfc64) (.ro .CFG_RECIP) = .number 0x381 ∧
    hostRead State.reset (.ro .CONST_TWO_INV) = .number 0x7fd4 ∧
    hostRead (State.resetOf mfc64) (.ro .CONST_TWO_INV) = .number 0x7ffffffffffffe40 ∧
    hostRead State.reset (.ro .CONST_NUM_BITS) = .number 16 ∧
    hostRead (State.resetOf mfc64) (.ro .CONST_CAPACITY) = .number 63 ∧
    hostRead State.reset (.ro .CONST_ROOT_OF_UNITY) = .number 0xffa6 := by decide +kernel

/-- R24 and R25 without `CONFIG_OK`, by hand from the formulas: the record for `W = 64`, `M = 1`, and the bit length of
`0x10000`. -/
theorem test_published_without_config_ok :
    hostRead (State.resetOf { mfc64 with M := 1 }) (.ro .CFG_SHIFT) = .number 63 ∧
    hostRead (State.resetOf { mfc64 with M := 1 }) (.ro .CFG_DNORM) = .number 0x8000000000000000 ∧
    hostRead (State.resetOf { mfc64 with M := 1 }) (.ro .CFG_RECIP) = .number 0xffffffffffffffff ∧
    hostRead (State.resetOf (small 0x10000)) (.ro .CONST_NUM_BITS) = .number 17 ∧
    hostRead (State.resetOf (small 0x10000)) (.ro .CONST_S) = .number 0 ∧
    hostRead (State.resetOf (small 0x10000)) (.ro .CONFIG_OK) = .number 0 := by decide +kernel

/-- R25's formula on the composite modulus 27, by hand: 2^13 mod 27 = 11, and 11 * 5 = 2 * 27 + 1 (log entry 23). -/
theorem test_root_of_composite_modulus :
    hostRead (State.resetOf { small 27 with GENERATOR := 2 }) (.ro .CONST_ROOT_OF_UNITY) = .number 11 ∧
    hostRead (State.resetOf { small 27 with GENERATOR := 2 }) (.ro .CONST_ROOT_OF_UNITY_INV) = .number 5 := by
  decide +kernel

/-- The per-command reciprocals of 95_test_vectors.md part 2.2, for the divisors 1, 3 and 2^63 + 1. -/
theorem test_reciprocals : reciprocal (1 <<< clz64 1) = 0xffffffffffffffff ∧
    clz64 3 = 62 ∧ reciprocal (3 <<< 62) = 0x5555555555555555 ∧ reciprocal 0x8000000000000001 = 0xfffffffffffffffc := by
  decide +kernel

theorem test_step_runs_the_word :
    gives (step ((onAB .mfc16 0xffa6 1).withFetchWord 32 1)) = some (some 0, some true, 0) := by decide +kernel

theorem test_mov_and_reset : (hostEffect { State.reset with R := some 5 } .movA).A = some 5 ∧
    hostEffect { inFault (onAB .mfc16 1 1) with R := some 5 } (.reset none) = State.reset := by decide +kernel

theorem test_wrbuf : wrbuf [0xff, 0xa6] = some [.wrBuf 0 0xff, .wrBuf 1 0xa6, .wrBlen 2] ∧
    wrbuf (List.replicate 65 0) = none := by decide +kernel

/-! ## Witnesses: states and operands that meet the hypotheses of the statements, at their boundary values -/

/-- The host's next action is `act`. -/
def about (act : HostAction) (s : State) : State := { s with host := [act] }

/-- A state of `MFC16` in which ENC has run. -/
def afterEnc : State :=
  { onAB .mfc16 0x1234 0 with BUF := [(0, 0x12), (1, 0x34)], BLEN := some 2, V := some true, R := some 0xffff }

theorem test_witness_inv : afterEnc.Inv :=
  ⟨by decide, by intro r h; simp only [afterEnc, onAB, State.resetOf, Option.some.injEq] at h; subst h; decide,
    by decide, .inl ⟨rfl, rfl⟩⟩

theorem test_witness_inv_in_fault_state : (inFault afterEnc).Inv :=
  ⟨test_witness_inv.buf, test_witness_inv.width, test_witness_inv.valid, .inr ⟨.operandRange, rfl⟩⟩

/-- EveryStepKeepsTheInvariant, NoStepChangesTheConfiguration: a command, a host write and a reset. -/
theorem test_witness_step_next : afterEnc.Inv ∧ (∃ t, step (about (.issue 1) afterEnc) = .next t) ∧
    (∃ t, step (about (.wrBuf 63 0xff) afterEnc) = .next t) ∧ (∃ t, step (about (.reset none) afterEnc) = .next t) :=
  ⟨test_witness_inv, ⟨_, rfl⟩, ⟨_, rfl⟩, ⟨_, rfl⟩⟩

/-- NoStepChangesTheConfiguration, its clause on `CFG_M`: the largest `M` of 16 bits, and `MFC16`. -/
theorem test_witness_cfg_m : (small 0xffff).M < 2 ^ (small 0xffff).W ∧ afterEnc.cfg.M < 2 ^ afterEnc.cfg.W := by decide

/-- StepRunsTheDecodedCommand, DecodeAndEncodeAgree. -/
theorem test_witness_decoded : (about (.issue 0x0000040C) afterEnc).host = .issue 0x0000040C :: [] ∧
    decode 0x0000040C = .ok (.encEnv .w16) ∧ decode 0x0000020F = .ok .remr := by decide

/-- IdleStepHoldsAllRegisters. -/
theorem test_witness_idle : afterEnc.host = [] := rfl

/-- HostAccessesStoreAndReadBack, each clause. -/
theorem test_witness_host_accesses :
    (about (.wrA (BitVec.allOnes 128)) afterEnc).host = .wrA (BitVec.allOnes 128) :: [] ∧
    (about (.wrB 0) afterEnc).host = .wrB 0 :: [] ∧
    (about (.wrBuf 63 0xff) afterEnc).host = .wrBuf 63 0xff :: [] ∧
    (about (.wrBlen 0xff) afterEnc).host = .wrBlen 0xff :: [] ∧
    (about (.wrReadOnly .STATUS 1) afterEnc).host = .wrReadOnly .STATUS 1 :: [] ∧
    (about (.rd .BLEN) afterEnc).host = .rd .BLEN :: [] := by decide

/-- MoveCopiesTheResult, each clause. -/
theorem test_witness_move : (about .movA afterEnc).R = some 0xffff ∧ (about .movA afterEnc).host = .movA :: [] ∧
    (about .movB afterEnc).R = some 0xffff ∧ (about .movB afterEnc).host = .movB :: [] ∧
    (about .movA State.reset).R = none ∧ (about .movA State.reset).host = .movA :: [] := by decide

/-- HostResetTakesTheResetState, with and without a lost command, in and out of the fault state. -/
theorem test_witness_reset : (about (.reset (some 1)) (inFault afterEnc)).host = .reset (some 1) :: [] ∧
    (about (.reset none) afterEnc).host = .reset none :: [] := by decide

/-- InvalidConfigurationFaultsOnEveryCommand: `M` just above and just below the legal values, and another `W`. -/
theorem test_witness_invalid_config :
    configOk (small 0x10000) = false ∧ configOk (small 1) = false ∧ configOk { small 7 with W := 8 } = false ∧
    configOk (small 2) = true ∧ configOk (small 0xffff) = true ∧
    (about (.issue 0) (onAB (small 1) 1 1)).faulted = false ∧
    (about (.issue 0) (onAB (small 1) 1 1)).host = .issue 0 :: [] ∧
    ({ onAB (small 1) 1 1 with host := [.reset none, .issue 1] } : State).host = .reset none :: .issue 1 :: [] := by
  decide

/-- ReciprocalRecordValues: the smallest and the largest modulus it speaks of, and `MFC64`; AbsentRecordReadsAreRefused:
another width. -/
theorem test_witness_reciprocal_record : mfc64.W = 64 ∧ 1 ≤ ({ mfc64 with M := 1 } : Config).M ∧
    ({ mfc64 with M := 2 ^ 64 - 1 } : Config).M < 2 ^ 64 ∧ mfc64.M = 0xfffffffffffffc7f ∧ mfc32.W ≠ 64 := by decide

/-- PublishedConstantsHaveTheirProperties, each clause: `MFC16`, an odd and an even `M`, `M = 1`, `M = 2^W`. -/
theorem test_witness_constants : 1 ≤ ({ small 3 with W := 1 } : Config).W ∧ Config.mfc16.GENERATOR < 2 ^ Config.mfc16.W ∧ 1 ≤ (small 1).M ∧
    (small (2 ^ 255 - 1)).M < 2 ^ 255 ∧ Config.mfc16.M % 2 = 1 ∧ (Config.mfc16.M + 1) / 2 < 2 ^ Config.mfc16.W ∧
    2 ≤ Config.mfc16.M ∧ (small 1).M % 2 = 1 ∧ (small 2).M % 2 = 0 ∧ 2 ≤ (small 2).M ∧
    (small 0x10000).M ≤ 2 ^ (small 0x10000).W ∧ (small 0x10000).W < 256 ∧ Config.mfc16.M % 4 = 3 ∧
    (0xffa6 : Nat).Coprime Config.mfc16.M := by decide +kernel

/-- RootOfUnityIsMinusOne: modulus 7 with its generator 3. -/
theorem test_witness_root_of_unity : configOk { small 7 with GENERATOR := 3 } = true ∧ (small 7).M.Prime ∧
    (small 7).M % 4 = 3 ∧ ∀ x, 0 < x → x < (small 7).M → ∃ k, 3 ^ k % (small 7).M = x := by
  refine ⟨by decide, by norm_num [small], by decide, fun x h0 h7 => ?_⟩
  have h7' : x < 7 := h7
  interval_cases x
  exacts [⟨0, rfl⟩, ⟨2, rfl⟩, ⟨1, rfl⟩, ⟨4, rfl⟩, ⟨5, rfl⟩, ⟨3, rfl⟩]

/-- IllegalWordsAreThoseClassified: an illegal word and a legal one. -/
theorem test_witness_legal : legalOn 16 0x0000000F = false ∧ legalOn 16 0x00000201 = false ∧
    legalOn 16 0x0000040D = true ∧ legalOn 64 0x0000020F = true ∧ legalOn 16 0x00000010 = false ∧
    configOk afterEnc.cfg = true ∧ afterEnc.faulted = false := by decide

/-- Every failing check of 60_exceptions.md R202 steps 3 to 6, in a ready command, and a command with none
(CommonChecksFaultInOrder, and the faults in each command's own statement). -/
theorem test_witness_failures :
    operandFailure (.sqrt .w16) (onAB (small 0xfff1) 4 0) = some .unsupportedModulus ∧
    operandFailure (.neg .w16) State.reset = some .unwrittenOperand ∧
    operandFailure (.add .w16) { State.reset with A := some 0xffff } = some .unwrittenOperand ∧
    operandFailure (.add .w16) (onAB .mfc16 0xffa7 0) = some .operandRange ∧
    operandFailure (.sqrtr .w16) (onAB .mfc16 0 0xffa7) = some .operandRange ∧
    operandFailure (.dec .w16) State.reset = some .unwrittenOperand ∧
    operandFailure (.decEnv .w16) (onBuf .mfc16 [1, 2]) = some .lengthMismatch ∧
    operandFailure (.redw .w16) { onBuf .mfc16 [1, 2, 3] with BLEN := some 4 } = some .unwrittenOperand ∧
    operandFailure (.rednz .w16) (onBuf .mfc16 [1, 2, 3, 4]) = none := by decide +kernel

theorem test_witness_remr_failures :
    operandFailure .remr (State.resetOf mfc64) = some .unwrittenOperand ∧
    operandFailure .remr { State.resetOf mfc64 with A := some 1 } = some .unwrittenOperand ∧
    operandFailure .remr (onAB mfc64 5 0x10000000000000000) = some .operandRange ∧
    operandFailure .remr (onAB mfc64 5 0) = some .divisorZero ∧
    operandFailure .remr (onAB mfc64 0x30000000000000000 3) = some .dividendRange ∧
    operandFailure .remr (onAB mfc64 0x2ffffffffffffffff 3) = none := by decide +kernel

/-- The states of the two theorems above are ready, and their byte-length parameters legal. -/
theorem test_witness_ready : (onAB (small 0xfff1) 4 0).Ready (.sqrt .w16) ∧ State.reset.Ready (.neg .w16) ∧
    (onAB .mfc16 0xffa7 0).Ready (.add .w16) ∧ (onBuf .mfc16 [1, 2]).Ready (.decEnv .w16) ∧
    (onAB mfc64 5 0).Ready .remr ∧ LegalLengths Config.mfc16 ∧ LegalLengths mfc64 ∧ LegalLengths (small 0xfff1) := by
  decide

/-- The two checks before them, in the statement of each command: a bad build, and the wrong width. -/
theorem test_witness_first_checks : configOk (onAB (small 1) 0 0).cfg = false ∧ (onAB (small 1) 0 0).faulted = false ∧
    configOk (onAB .mfc16 0 0).cfg = true ∧ ¬ WellFormed (onAB .mfc16 0 0).cfg.W (.add .w32) ∧
    ¬ WellFormed (onAB .mfc16 0 0).cfg.W .remr := by decide

/-- FaultEntryWritesOnlyStatusAndFcmd. -/
theorem test_witness_fault_entry : (about (.issue 1) (onAB .mfc16 0xffa7 0)).faulted = false ∧
    ∃ t, step (about (.issue 1) (onAB .mfc16 0xffa7 0)) = .next t ∧ t.faulted = true :=
  ⟨by decide, _, rfl, by decide⟩

/-- FaultStatePerformsNoCommand, OnlyResetLeavesTheFaultState: both ways a step goes on. -/
theorem test_witness_fault_state : (about (.issue 1) (inFault afterEnc)).faulted = true ∧
    (∃ t, step (about (.issue 1) (inFault afterEnc)) = .next t ∧ t.faulted = true) ∧
    (about (.reset none) (inFault afterEnc)).faulted = true ∧
    (∃ t, step (about (.reset none) (inFault afterEnc)) = .next t ∧ t.faulted = false) :=
  ⟨by decide, ⟨_, rfl, by decide⟩, by decide, _, rfl, by decide⟩

/-- EveryCommandHasOneOfThreeOutcomes: a result, a soft outcome and a fault. -/
theorem test_witness_outcomes : (onAB .mfc16 0 1).faulted = false ∧
    (∃ t, exec (.add .w16) (onAB .mfc16 0 1) = .next t ∧ t.V = some true) ∧
    (∃ t, exec (.inv .w16) (onAB .mfc16 0 1) = .next t ∧ t.V = some false) ∧
    (∃ t, exec (.dec .w16) (onAB .mfc16 0 1) = .next t ∧ t.faulted = true) :=
  ⟨by decide, ⟨_, rfl, by decide⟩, ⟨_, rfl, by decide⟩, _, rfl, by decide⟩

/-- CommandsWriteOnlyTheirWriteSets: a command of each write set. -/
theorem test_witness_write_sets : (∃ t, exec (.enc .w16) (onAB .mfc16 5 0) = .next t ∧ t.BLEN = some 2) ∧
    (∃ t, exec (.encEnv .w16) (onAB .mfc16 5 0) = .next t ∧ t.BLEN = some 4) ∧
    (∃ t, exec (.neg .w16) (onAB .mfc16 5 0) = .next t ∧ t.R ≠ none) ∧
    encodeCommand (.enc .w16) = true ∧ encodeCommand (.neg .w16) = false ∧ softCommand (.neg .w16) = false ∧
    Config.mfc16.NB ≤ 2 ∧ Config.mfc16.ENV_BYTES ≤ 4 :=
  ⟨⟨_, rfl, by decide⟩, ⟨_, rfl, by decide⟩, ⟨_, rfl, by decide⟩, by decide⟩

/-- CommandsReadOnlyTheirOperands: two states that differ in everything a field command, and a byte command, does not
read. -/
theorem test_witness_reads :
    ((∃ t, exec (.neg .w16) (onAB .mfc16 5 1) = .next t) ∧
      { afterEnc with A := some 5, B := some 2 }.cfg = (onAB .mfc16 5 1).cfg ∧
      { afterEnc with A := some 5, B := some 2 }.STATUS = (onAB .mfc16 5 1).STATUS ∧
      { afterEnc with A := some 5, B := some 2 }.FCMD = (onAB .mfc16 5 1).FCMD ∧
      { afterEnc with A := some 5, B := some 2 }.draws = (onAB .mfc16 5 1).draws ∧
      { afterEnc with A := some 5, B := some 2 }.A = (onAB .mfc16 5 1).A ∧
      binaryField (.neg .w16) = false ∧ fieldCommand (.neg .w16) = true) ∧
    ((∃ t, exec (.dec .w16) (onBuf .mfc16 [0x12, 0x34]) = .next t) ∧
      { afterEnc with BUF := [(0, 0x12), (1, 0x34), (63, 9)] }.BLEN = (onBuf .mfc16 [0x12, 0x34]).BLEN ∧
      (∀ k < byteLength Config.mfc16 (.dec .w16),
        Memory.read [(0, 0x12), (1, 0x34), (63, 9)] k = Memory.read (onBuf .mfc16 [0x12, 0x34]).BUF k) ∧
      afterEnc.A ≠ (onBuf .mfc16 [0x12, 0x34]).A ∧ fieldCommand (.dec .w16) = false) :=
  ⟨⟨⟨_, rfl⟩, by decide⟩, ⟨_, rfl⟩, by decide⟩

/-- PresentResultsAreReduced, both clauses. -/
theorem test_witness_present : (onAB .mfc16 0xffa6 0xffa6).Ready (.add .w16) ∧
    (∃ t, exec (.add .w16) (onAB .mfc16 0xffa6 0xffa6) = .next t ∧ t.faulted = false ∧ t.V = some true) ∧
    (onAB mfc64 5 3).Ready .remr ∧
    (∃ t, exec .remr (onAB mfc64 5 3) = .next t ∧ t.faulted = false ∧ t.V = some true) :=
  ⟨by decide, ⟨_, rfl, by decide, by decide⟩, by decide, _, rfl, by decide, by decide⟩

/-- OperandsOutOfRangeFault: at `M` and at `M - 1`, in either operand, in a unary, a binary and a root command. -/
theorem test_witness_operand_range : (onAB .mfc16 0xffa6 0xffa7).Ready (.sqrtr .w16) ∧ LegalLengths Config.mfc16 ∧
    Config.mfc16.M % 4 = 3 ∧ (0xffa6 : BitVec 128).toNat < Config.mfc16.M ∧
    Config.mfc16.M ≤ (0xffa7 : BitVec 128).toNat ∧ binaryField (.sqrtr .w16) = true ∧
    fieldCommand (.sqrtr .w16) = true ∧ (onAB .mfc16 0xffa7 0).Ready (.isodd .w16) ∧
    binaryField (.isodd .w16) = false ∧ fieldCommand (.isodd .w16) = true := by decide

/-- UnwrittenOperandsFault: no `A`, no `B`, no `BLEN`, and a cell missing under the right length. -/
theorem test_witness_unwritten : State.reset.Ready (.neg .w16) ∧ State.reset.A = none ∧
    ({ State.reset with A := some 5 } : State).B = none ∧ State.reset.BLEN = none ∧
    ({ onBuf .mfc16 [1, 2, 3] with BLEN := some 4 } : State).Ready (.redw .w16) ∧
    ({ onBuf .mfc16 [1, 2, 3] with BLEN := some 4 } : State).BLEN.map BitVec.toNat =
      some (byteLength Config.mfc16 (.redw .w16)) ∧
    Memory.read (onBuf .mfc16 [1, 2, 3]).BUF 3 = none := by decide

/-- RootsFaultOnUnsupportedModulus: moduli 1, 2 and 0 modulo 4. -/
theorem test_witness_unsupported_modulus : (onAB (small 0xfff1) 4 0).Ready (.sqrtr .w16) ∧ (small 0xfff1).M % 4 ≠ 3 ∧
    (onAB (small 2) 4 0).Ready (.sqrt .w16) ∧ (small 2).M % 4 ≠ 3 ∧ (small 4).M % 4 ≠ 3 := by decide

/-- IllegalLengthParametersStop: one below `NB`, one above 64 cells, the boundary values that are legal, and a
REDW with a legal length beside an illegal `ENV_BYTES`. -/
theorem test_witness_illegal_length : lengthOk { Config.mfc16 with RED_BYTES := 1 } 1 = false ∧
    lengthOk { Config.mfc16 with ENV_BYTES := 65 } 65 = false ∧ lengthOk Config.mfc16 2 = true ∧
    lengthOk Config.mfc16 64 = true ∧ (onBuf { Config.mfc16 with RED_BYTES := 1 } [1]).Ready (.redw .w16) ∧
    (onAB { Config.mfc16 with ENV_BYTES := 65 } 1 1).Ready (.encEnv .w16) ∧ ¬ (inFault afterEnc).Ready (.redw .w16) ∧
    lengthOk { Config.mfc16 with ENV_BYTES := 65 } 4 = true ∧
    (onBuf { Config.mfc16 with ENV_BYTES := 65 } [1, 2, 3, 4]).Ready (.redw .w16) := by decide

/-- The result statements of the field-operand commands: the largest operands, in each width. -/
theorem test_witness_field_operands : (onAB .mfc16 0xffa6 0xffa6).Ready (.add .w16) ∧
    (0xffa6 : BitVec 128).toNat < Config.mfc16.M ∧ (onAB mfc32 0xfffffffa 0).Ready (.mul .w32) ∧
    (0xfffffffa : BitVec 128).toNat < mfc32.M ∧ (onAB mfc64 0xfffffffffffffc7e 0).Ready (.sub .w64) ∧
    (0xfffffffffffffc7e : BitVec 128).toNat < mfc64.M ∧ (onAB .mfc16 0 0).Ready (.neg .w16) ∧
    (onAB .mfc16 0 0).Ready (.dbl .w16) ∧ (onAB .mfc16 0 0).Ready (.sqr .w16) ∧ (onAB .mfc16 0 0).Ready (.inv .w16) ∧
    (onAB .mfc16 0 0).Ready (.enc .w16) ∧ (onAB .mfc16 0 0).Ready (.encEnv .w16) ∧
    (onAB .mfc16 0 0).Ready (.isodd .w16) := by decide

/-- The result statements of the byte-operand commands, each with a sequence of its length. -/
theorem test_witness_byte_operands : (onBuf .mfc16 [1, 2, 3, 4]).Ready (.redw .w16) ∧
    (onBuf .mfc16 [1, 2, 3, 4]).Ready (.rednz .w16) ∧ (onBuf .mfc16 [1, 2, 3, 4]).Ready (.decEnv .w16) ∧
    (onBuf .mfc16 [1, 2, 3, 4]).BLEN = some 4 ∧ Config.mfc16.RED_BYTES = 4 ∧ Config.mfc16.ENV_BYTES = 4 ∧
    Holds (onBuf .mfc16 [1, 2, 3, 4]).BUF [1, 2, 3, 4] ∧ lengthOk Config.mfc16 4 = true ∧
    (onBuf .mfc16 [0xff, 0xa7]).Ready (.dec .w16) ∧ Config.mfc16.NB = 2 ∧ (onBuf .mfc16 [0xff, 0xa7]).BLEN = some 2 ∧
    Holds (onBuf .mfc16 [0xff, 0xa7]).BUF [0xff, 0xa7] := by decide +kernel

/-- DecGivesTheValueOrNone, DecEnvGivesTheValueOrNone: the value just below `M`, `M`, and a padding byte. -/
theorem test_witness_decoded_values : beValue [0xff, 0xa6] < Config.mfc16.M ∧ Config.mfc16.M ≤ beValue [0xff, 0xa7] ∧
    beValue [0, 0, 0xff, 0xa6] < Config.mfc16.M ∧ (∀ k < 2, ([0, 0, 0xff, 0xa6] : List Byte)[k]? = some 0) ∧
    ¬ ∀ k < 2, ([0, 1, 0, 5] : List Byte)[k]? = some 0 := by decide

/-- RemrGivesTheRemainder: the largest legal high word for the largest and the smallest divisor. -/
theorem test_witness_remr : (onAB mfc64 0 1).Ready .remr ∧
    (0xfffffffffffffffeffffffffffffffff : BitVec 128).toNat / 2 ^ 64 < (0xffffffffffffffff : BitVec 128).toNat ∧
    (0xffffffffffffffff : BitVec 128).toNat < 2 ^ 64 ∧
    (0x0000000000000000ffffffffffffffff : BitVec 128).toNat / 2 ^ 64 < (1 : BitVec 128).toNat := by decide

/-- ReductionIsExact: the largest dividend of each path. -/
theorem test_witness_reduction : (mfc64.M * 2 ^ 64 - 1) / 2 ^ mfc64.W < mfc64.M ∧ configOk mfc64 = true ∧
    (mfc32.M * 2 ^ 32 - 1) / 2 ^ mfc32.W < mfc32.M ∧ configOk mfc32 = true := by decide +kernel

/-- AdditionHasNeutralAndInverse, MultiplicationDistributesOverAddition, InverseIsFermatsPower,
SqrtSucceedsExactlyOnSquares: on `MFC16`, whose modulus is prime. -/
theorem test_witness_laws : Config.mfc16.M.Prime ∧ (onAB .mfc16 5 0).Ready (.mul .w16) ∧ 0xffa6 < Config.mfc16.M ∧
    (onAB .mfc16 5 0).Ready (.inv .w16) ∧ (onAB .mfc16 5 0).A = some 5 ∧ (onAB .mfc16 5 0).Ready (.sqrt .w16) ∧
    Config.mfc16.M % 4 = 3 ∧ (onAB .mfc16 5 0).Ready (.add .w16) := by
  refine ⟨by norm_num [Config.mfc16], ?_⟩
  decide

/-- InvGivesTheInverseOrNone: coprime, 0, and a common factor (modulus 15). -/
theorem test_witness_inv_operands : (5 : Nat).Coprime Config.mfc16.M ∧ ¬ (0 : Nat).Coprime Config.mfc16.M ∧
    ¬ (6 : Nat).Coprime (small 15).M ∧ (onAB (small 15) 6 0).Ready (.inv .w16) := by decide +kernel

/-- SqrtGivesTheRootOrNone, both clauses, on modulus 7: 2 has the root 4, 3 has none. -/
theorem test_witness_sqrt_operands : (onAB (small 7) 2 0).Ready (.sqrt .w16) ∧ (small 7).M % 4 = 3 ∧
    2 ^ ((7 + 1) / 4) % 7 = 4 ∧ 4 * 4 % 7 = 2 ∧ 3 ^ ((7 + 1) / 4) % 7 = 2 ∧ 2 * 2 % 7 ≠ 3 := by decide

/-- SqrtrGivesTheRootOfTheRatio on modulus 7: `den = 0`, and 6/3 = 2 and 1/5 = 3 with the inverses 5 and 3. -/
theorem test_witness_sqrtr_operands : (onAB (small 7) 6 3).Ready (.sqrtr .w16) ∧ (onAB (small 7) 0 0).B = some 0 ∧
    3 * 5 % 7 = 1 ∧ 6 * 5 % 7 = 2 ∧ 5 * 3 % 7 = 1 ∧ 1 * 3 % 7 = 3 := by decide

/-- SqrtrWithoutAnInverseUsesTheFreeValue on modulus 15 with `den = 6`: `num = 0` meets the first clause whatever the
free value is. For another `num` the free value decides which of the two clauses applies; 1/6 meets the first if the
free value is 10 modulo 15 and the second if it is 2. -/
theorem test_witness_sqrtr_free_value : (onAB (small 15) 0 6).Ready (.sqrtr .w16) ∧ (small 15).M % 4 = 3 ∧
    ¬ (6 : Nat).Coprime (small 15).M ∧ (∀ d : Nat, 0 * d % 15 = 0) ∧ 0 ^ ((15 + 1) / 4) % 15 = 0 ∧
    (1 * 10) ^ ((15 + 1) / 4) % 15 = 10 ∧ 10 * 10 % 15 = 10 ∧ (1 * 2) ^ ((15 + 1) / 4) % 15 = 1 ∧
    1 * 1 % 15 ≠ 2 := by
  refine ⟨by decide, by decide, by decide, fun d => by rw [Nat.zero_mul, Nat.zero_mod], ?_⟩
  decide

/-- EncWritesTheBytes, EncEnvWritesThePaddedBytes, PaddingTestNeverChangesTheVerdict, on an envelope of all 64 cells. -/
theorem test_witness_codec : (onAB { Config.mfc16 with ENV_BYTES := 64 } 5 0).Ready (.encEnv .w16) ∧
    lengthOk { Config.mfc16 with ENV_BYTES := 64 } 64 = true ∧ configOk { Config.mfc16 with ENV_BYTES := 64 } = true ∧
    (List.replicate 64 (0 : Byte)).length = 64 ∧ (onAB .mfc16 0xffa6 0).Ready (.enc .w16) := by decide

/-- EncodingRoundTrips: both pairs, and the lengths of `MFC16`, which differ. -/
theorem test_witness_round_trips :
    (∃ t, exec (.enc .w16) (onAB .mfc16 0x1234 0) = .next t ∧ t.faulted = false) ∧
    (∃ t, exec (.encEnv .w16) (onAB .mfc16 0x1234 0) = .next t ∧ t.faulted = false) ∧
    lengthOk Config.mfc16 Config.mfc16.ENV_BYTES = true ∧ Config.mfc16.ENV_BYTES ≠ Config.mfc16.NB :=
  ⟨⟨_, rfl, by decide⟩, ⟨_, rfl, by decide⟩, by decide⟩

/-- ByteSequencesAreBigEndian: the largest value of two bytes. -/
theorem test_witness_bytes : 0xffff < 256 ^ 2 ∧ beBytes 2 0xffff = [0xff, 0xff] ∧ beValue [0x12, 0x34] = 0x1234 := by
  decide

/-- CanonicalBuffersAreDeterminedByTheirCells: two canonical buffers made in different orders. -/
theorem test_witness_buffers : (Memory.write (Memory.write [] 63 1) 0 2).wf ∧
    (Memory.write (Memory.write [] 0 2) 63 1).wf ∧
    ∀ k < 64, Memory.read (Memory.write (Memory.write [] 63 1) 0 2) k =
      Memory.read (Memory.write (Memory.write [] 0 2) 63 1) k := by decide

/-- WrbufWritesTheSequence: a sequence that fills `BUF`, and one that does not fit. -/
theorem test_witness_wrbuf : (List.replicate 64 (0 : Byte)).length ≤ 64 ∧ 64 < (List.replicate 65 (0 : Byte)).length := by
  decide

end Sys2Proof.Tests
end

section
/-! PROOF. The byte sequences of 00_scope.md R10: the head-first value `beValue` is the big-endian sum. -/

namespace Sys2Proof.Proofs.ByteSequences

open Sys2Proof Sys2Proof.Machine

/-- `beValue` peels off the most significant byte; the sum does the same with its first term. -/
theorem beValue_eq_sum (bs : List Byte) :
    beValue bs = ∑ i : Fin bs.length, (bs[i]).toNat * 256 ^ (bs.length - 1 - i.val) := by
  induction bs with
  | nil => rfl
  | cons b bs ih =>
    have weight (i : Fin bs.length) :
        (b :: bs).length - 1 - i.succ.val = bs.length - 1 - i.val := by
      simp only [List.length_cons, Fin.val_succ]; omega
    calc beValue (b :: bs)
      _ = b.toNat * 256 ^ bs.length + ∑ i : Fin bs.length, (bs[i]).toNat * 256 ^ (bs.length - 1 - i.val) := by
        rw [beValue, ih]
      _ = b.toNat * 256 ^ bs.length +
            ∑ i : Fin bs.length, (bs[i]).toNat * 256 ^ ((b :: bs).length - 1 - i.succ.val) := by
        simp only [weight]
      _ = _ := (Fin.sum_univ_succ fun i : Fin (b :: bs).length =>
        ((b :: bs)[i]).toNat * 256 ^ ((b :: bs).length - 1 - i.val)).symm

/-- A value that fits in `n` bytes is recovered from its `n`-byte sequence. -/
theorem beValue_beBytes_of_lt {n v : ℕ} (hv : v < 256 ^ n) : beValue (beBytes n v) = v := by
  rw [beValue_beBytes, Nat.mod_eq_of_lt hv]

/-- Settles O58: the sum by induction on the sequence, the `n`-byte sequence by the codec's round trip. -/
theorem byteSequencesAreBigEndian : Obligations.ByteSequencesAreBigEndian :=
  ⟨beValue_eq_sum, fun n v hv => ⟨beBytes_length n v, beValue_beBytes_of_lt hv⟩⟩

end Sys2Proof.Proofs.ByteSequences
end

section
/-! PROOF. Every decoded word is the word of its command (30_encoding.md R81 to R85). -/

namespace Sys2Proof.Proofs.WordFields

open Sys2Proof Sys2Proof.Machine

/-- A word is its four fields, from the most significant down (30_encoding.md R81). -/
theorem word_eq_fields (w : CmdWord) :
    w = reservedOf w ++ BitVec.ofBool (envOf w) ++ wselOf w ++ opcOf w := by
  refine BitVec.eq_of_getLsbD_eq fun k hk => ?_
  simp only [reservedOf, envOf, wselOf, opcOf, BitVec.getLsbD_append, BitVec.getLsbD_extractLsb',
    BitVec.getLsbD_ofBool]
  by_cases hopc : k < 8
  · simp [hopc]
  by_cases hwsel : k < 10
  · simp [hopc, show k - 8 < 2 by omega, show 8 + (k - 8) = k by omega]
  obtain rfl | hres : k = 10 ∨ 10 < k := by omega
  · simp
  · simp [hopc, show ¬ k - 8 < 2 by omega, show ¬ k - 8 - 2 < 1 by omega, show k - 8 - 2 - 1 < 21 by omega,
      show 11 + (k - 8 - 2 - 1) = k by omega]

theorem wselCode_of_widthOfCode {c : BitVec 2} {wd : Width} (h : widthOfCode c = some wd) : wselCode wd = c := by
  unfold widthOfCode at h
  split_ifs at h with h16 h32 h64
  · cases h; exact h16.symm
  · cases h; exact h32.symm
  · cases h; exact h64.symm

/-- A form that exists with `ENV = 0` only is selected with it. -/
theorem plainForm_eq_ok {env : Bool} {i j : Instr} (h : plainForm env i = .ok j) : env = false ∧ j = i := by
  cases env with
  | false => cases h; exact ⟨rfl, rfl⟩
  | true => cases h

/-- The command an `OPC` value selects has the fields it was selected by. -/
theorem fields_of_decodeOpc {wd : Width} {env : Bool} {opc : ℕ} {i : Instr} (h : decodeOpc wd env opc = .ok i) :
    i.width = wd ∧ i.env = env ∧ i.opc.toNat = opc := by
  unfold decodeOpc at h
  split at h
  -- ENC and DEC, REMR, no command; the rest exist with `ENV = 0` only (R84)
  case h_12 | h_13 => cases env <;> cases h <;> exact ⟨rfl, rfl, rfl⟩
  case h_15 =>
    split_ifs at h with he hw
    cases h
    exact ⟨hw.symm, (Bool.eq_false_of_not_eq_true he).symm, rfl⟩
  case h_16 => cases h
  all_goals
    obtain ⟨rfl, rfl⟩ := plainForm_eq_ok h
    exact ⟨rfl, rfl, rfl⟩

/-- A command's word is the one it was decoded from: no bit of the word is dropped. -/
theorem encode_of_decode {w : CmdWord} {i : Instr} (h : decode w = .ok i) : encode i = w := by
  unfold decode at h
  split_ifs at h with hres
  split at h
  · cases h
  · next wd hwd =>
    obtain ⟨hwidth, henv, hopc⟩ := fields_of_decodeOpc h
    rw [word_eq_fields w, encode, hwidth, henv, wselCode_of_widthOfCode hwd, BitVec.eq_of_toNat_eq hopc,
      not_not.1 hres]

end Sys2Proof.Proofs.WordFields
end

section
/-! PROOF. A ready field-element command whose operands are in range completes (60_exceptions.md R202 steps 3 and 4). -/

namespace Sys2Proof.Proofs.FieldOperands

open Sys2Proof Sys2Proof.Machine

@[simp] theorem optional_STATUS (s : State) (o : Option ℕ) : (s.optional o).STATUS = s.STATUS := by
  cases o <;> rfl

@[simp] theorem ratioInverse_STATUS (s : State) (den : ℕ) : (ratioInverse s den).2.STATUS = s.STATUS := by
  unfold ratioInverse
  split
  · rfl
  · split <;> rfl

/-- Past the modulus check of the root commands, the first failing check of a field command is one of its operands'. -/
theorem operandFailure_of_fieldCommand {i : Instr} {s : State} (hf : fieldCommand i = true)
    (hroot : rootCommand i = true → s.cfg.M % 4 = 3) : operandFailure i s = fieldFailure i s := by
  rw [operandFailure, if_neg fun h => h.2 (hroot h.1), if_pos hf]

/-- With written operands, one that is not below `M` is the first failing check. -/
theorem fieldFailure_eq_operandRange {i : Instr} {s : State} {a b : BitVec 128} (hA : s.A = some a)
    (hB : binaryField i = true → s.B = some b)
    (h : s.cfg.M ≤ a.toNat ∨ (binaryField i = true ∧ s.cfg.M ≤ b.toNat)) :
    fieldFailure i s = some .operandRange := by
  have hBw : ¬ (binaryField i = true ∧ s.B = none) := fun ⟨hb, hn⟩ => by simp [hB hb] at hn
  rw [fieldFailure, if_neg (by simp [hA]), if_neg hBw]
  split_ifs with h1 h2
  · rfl
  · rfl
  · obtain ha | ⟨hb, hM⟩ := h
    · exact absurd (by simpa [atLeast, hA] using ha) h1
    · exact absurd ⟨hb, by simpa [atLeast, hB hb] using hM⟩ h2

/-- A ready command whose body gives a state with the old `STATUS` completes in it. -/
theorem command_completes {i : Instr} {s t : State} {body : Except Stop State} (hr : s.Ready i)
    (hb : body = .ok t) (ht : t.STATUS = s.STATUS) : ∃ t, command i s body = .next t ∧ t.STATUS = s.STATUS :=
  ⟨t, by rw [command_ready hr, hb], ht⟩

/-- A ready field command, on a modulus it supports, completes when its operands are written and below `M`; the
envelope length needs to be legal for ENC.ENV (log entry 9). -/
theorem exec_field_completes {i : Instr} {s : State} {a b : BitVec 128} (hf : fieldCommand i = true)
    (hr : s.Ready i) (henv : lengthOk s.cfg s.cfg.ENV_BYTES = true)
    (hroot : rootCommand i = true → s.cfg.M % 4 = 3) (hA : s.A = some a) (ha : a.toNat < s.cfg.M)
    (hB : binaryField i = true → s.B = some b) (hb : binaryField i = true → b.toNat < s.cfg.M) :
    ∃ t, exec i s = .next t ∧ t.STATUS = s.STATUS := by
  have one : fieldOperand s = .ok a.toNat := fieldOperand_eq_ok.2 ⟨⟨a, hA, rfl⟩, ha⟩
  have two (h : binaryField i = true) : fieldOperands s = .ok (a.toNat, b.toNat) :=
    fieldOperands_eq_ok.2 ⟨⟨a, hA, rfl⟩, ⟨b, hB h, rfl⟩, ha, hb h⟩
  have modulus (h : rootCommand i = true) : checkModulus s.cfg = .ok () := by simp [checkModulus, hroot h]
  have length : checkLength s.cfg s.cfg.ENV_BYTES = .ok () := by simp [checkLength, henv]
  cases i
  case add w | sub w | mul w => exact command_completes hr (by rw [two rfl]; rfl) (State.result_STATUS ..)
  case neg w | dbl w | sqr w | isodd w => exact command_completes hr (by rw [one]; rfl) (State.result_STATUS ..)
  case enc w => exact command_completes hr (by rw [one]; rfl) (State.encoded_STATUS ..)
  case inv w => exact command_completes hr (by rw [one]; rfl) (optional_STATUS ..)
  case sqrt w => exact command_completes hr (by rw [modulus rfl, one]; rfl) (optional_STATUS ..)
  case sqrtr w =>
    exact command_completes hr (by rw [modulus rfl, two rfl]; rfl)
      ((optional_STATUS ..).trans (ratioInverse_STATUS ..))
  case encEnv w => exact command_completes hr (by rw [length, one]; rfl) (State.encoded_STATUS ..)
  case redw w | rednz w | dec w | decEnv w | remr => exact absurd hf Bool.false_ne_true

/-- Settles O29: an operand that is out of range is the first failing check, and with none the command completes. -/
theorem operandsOutOfRangeFault : Obligations.OperandsOutOfRangeFault := by
  intro i s a b hf hr ⟨henv, hred⟩ hroot hA hB
  refine ⟨fun h => ?_, fun ha hb => exec_field_completes hf hr henv hroot hA ha hB hb⟩
  refine exec_raises hr (fun _ => hred) (fun _ => henv) ?_
  rw [operandFailure_of_fieldCommand hf hroot, fieldFailure_eq_operandRange hA hB h]

end Sys2Proof.Proofs.FieldOperands
end

section
/-! PROOF. The configuration: no step changes it, and without `CONFIG_OK` no command is performed (10_state.md R22,
R23). -/

namespace Sys2Proof.Proofs.Configuration

open Sys2Proof Sys2Proof.Machine Sys2Proof.Proofs.WordFields

theorem completes_cfg {i : Instr} {s t : State} (h : Completes i s t) : t.cfg = s.cfg := by
  cases h <;> rfl

theorem exec_cfg {i : Instr} {s t : State} (h : exec i s = .next t) : t.cfg = s.cfg := by
  obtain ⟨-, rfl⟩ | ⟨-, c, rfl⟩ | ⟨-, hc⟩ := exec_cases h
  · rfl
  · rfl
  · exact completes_cfg hc

theorem issue_cfg {w : CmdWord} {s t : State} (h : issue w s = .next t) : t.cfg = s.cfg := by
  obtain ⟨i, -, hi⟩ | ⟨-, ⟨-, rfl⟩ | ⟨-, c, rfl⟩⟩ := issue_cases h
  · exact exec_cfg hi
  · rfl
  · rfl

@[simp] theorem hostEffect_cfg (s : State) (act : HostAction) : (hostEffect s act).cfg = s.cfg := by
  cases act <;> rfl

theorem step_cfg {s t : State} (h : step s = .next t) : t.cfg = s.cfg := by
  obtain ⟨-, rfl⟩ | ⟨w, rest, -, hw⟩ | ⟨act, rest, -, -, rfl⟩ := step_cases h
  · rfl
  · exact (issue_cfg hw :)
  · exact hostEffect_cfg _ act

/-- Settles O12: a step is idle, issues a word or is a host action, and none of the three writes the configuration. -/
theorem noStepChangesTheConfiguration : Obligations.NoStepChangesTheConfiguration :=
  ⟨fun _ _ => step_cfg, fun _ => ⟨rfl, fun _ => rfl⟩⟩

theorem configOk_iff (c : Config) :
    configOk c = true ↔ (c.W = 16 ∨ c.W = 32 ∨ c.W = 64) ∧ 2 ≤ c.M ∧ c.M ≤ 2 ^ c.W - 1 := by
  simp only [configOk, Bool.and_eq_true, Bool.or_eq_true, decide_eq_true_eq, or_assoc, and_assoc]

theorem exec_configInvalid {i : Instr} {s : State} (hf : s.faulted = false) (hc : configOk s.cfg = false) :
    exec i s = .next (s.raise .configInvalid (encode i)) := by
  cases i <;> exact command_configInvalid hf hc

/-- The decoder's verdict makes no difference without `CONFIG_OK` (60_exceptions.md R202 step 1). -/
theorem issue_configInvalid {w : CmdWord} {s : State} (hf : s.faulted = false) (hc : configOk s.cfg = false) :
    issue w s = .next (s.raise .configInvalid w) := by
  cases hd : decode w with
  | ok i => simp only [issue, hd, exec_configInvalid hf hc, encode_of_decode hd]
  | error e => simp [issue, hd, issueIllegal, hf, hc]

theorem step_configInvalid {s : State} {w : CmdWord} {rest : List HostAction} (hc : configOk s.cfg = false)
    (hf : s.faulted = false) (hs : s.host = .issue w :: rest) :
    step s = .next (State.raise { s with host := rest } .configInvalid w) :=
  (step_issue hs).trans (issue_configInvalid hf hc)

theorem step_reset {s : State} {lost : Option CmdWord} {rest : List HostAction} (hs : s.host = .reset lost :: rest) :
    step s = .next (State.hostReset { s with host := rest }) :=
  step_hostEffect hs (by simp)

/-- Settles O13: the check comes before the decoder's verdict, and the reset state is unfaulted with the old
configuration. -/
theorem invalidConfigurationFaultsOnEveryCommand : Obligations.InvalidConfigurationFaultsOnEveryCommand := by
  refine ⟨configOk_iff, fun s => ?_, fun s w rest => step_configInvalid, fun s lost w rest hc hs => ?_⟩
  · simp only [hostRead, readReadOnly, configOk_iff]
  · exact ⟨_, step_reset hs, rfl, step_configInvalid hc (State.hostReset_faulted _) rfl⟩

end Sys2Proof.Proofs.Configuration
end

section
/-! PROOF. The reciprocal record (10_state.md R24). -/

namespace Sys2Proof.Proofs.ReciprocalRecord

open Sys2Proof Sys2Proof.Machine

/-- With `W = 64` and a nonzero 64-bit `M`, a record register reads as a value it can hold. -/
theorem readRecord_of_lt {c : Config} {k bound v : ℕ} (hW : c.W = 64) (hM : 1 ≤ c.M ∧ c.M < 2 ^ 64)
    (hv : v < bound) : readRecord c k bound v = .number v := by
  rw [readRecord, if_pos hW, recordValue_of_mem hM, published_some hv]

theorem clz64_lt {d : ℕ} (hd : 0 < d) (h64 : d < 2 ^ 64) : clz64 d < 64 := by
  have h : 2 ^ clz64 d < 2 ^ 64 :=
    (Nat.le_mul_of_pos_left _ hd).trans_lt (clz64_normalises hd h64).2
  exact (Nat.pow_lt_pow_iff_right Nat.one_lt_two).1 h

/-- The implicit top bit of the reciprocal of a normalised divisor is `2^64`, and the rest fits 64 bits. -/
theorem reciprocal_eq_div {d : ℕ} (h1 : 2 ^ 63 ≤ d) (h2 : d < 2 ^ 64) :
    2 ^ 64 + reciprocal d = (2 ^ 128 - 1) / d ∧ reciprocal d < 2 ^ 64 := by
  have hd : 0 < d := by omega
  have hlow : 2 ^ 64 ≤ (2 ^ 128 - 1) / d := (Nat.le_div_iff_mul_le hd).2 (by omega)
  have hhigh : (2 ^ 128 - 1) / d < 2 ^ 65 := (Nat.div_lt_iff_lt_mul hd).2 (by omega)
  unfold reciprocal
  omega

theorem cfgDnorm_eq (c : Config) : cfgDnorm c = c.M * 2 ^ cfgShift c := Nat.shiftLeft_eq ..

/-- The record of `MFC64` (10_state.md R24). -/
theorem record_mfc64 {c : Config} (h : c.M = 0xfffffffffffffc7f) :
    cfgShift c = 0 ∧ cfgDnorm c = 0xfffffffffffffc7f ∧ cfgRecip c = 0x381 := by
  have hshift : cfgShift c = 0 := by simp [cfgShift, h, clz64, clzBits]
  have hdnorm : cfgDnorm c = 0xfffffffffffffc7f := by simp [cfgDnorm_eq, hshift, h]
  exact ⟨hshift, hdnorm, by rw [cfgRecip, hdnorm]; decide⟩

/-- Settles O14: the leading zeros normalise `M`, and the reciprocal of a normalised divisor has its top bit `2^64`. -/
theorem reciprocalRecordValues : Obligations.ReciprocalRecordValues := by
  intro s hW hM1 hM64
  have hshift : cfgShift s.cfg < 64 := clz64_lt hM1 hM64
  obtain ⟨hlow, hhigh⟩ : 2 ^ 63 ≤ cfgDnorm s.cfg ∧ cfgDnorm s.cfg < 2 ^ 64 := by
    rw [cfgDnorm_eq]
    exact clz64_normalises hM1 hM64
  obtain ⟨hdiv, hrecip⟩ : 2 ^ 64 + cfgRecip s.cfg = (2 ^ 128 - 1) / cfgDnorm s.cfg ∧ cfgRecip s.cfg < 2 ^ 64 :=
    reciprocal_eq_div hlow hhigh
  have reads {k bound v : ℕ} (hv : v < bound) : readRecord s.cfg k bound v = .number v :=
    readRecord_of_lt hW ⟨hM1, hM64⟩ hv
  exact ⟨cfgShift s.cfg, cfgDnorm s.cfg, cfgRecip s.cfg, reads hshift, reads hhigh, reads hrecip,
    Nat.le_of_lt_succ hshift, cfgDnorm_eq _, hlow, hhigh, hrecip, hdiv, record_mfc64⟩

end Sys2Proof.Proofs.ReciprocalRecord
end

section
/-! PROOF. The reset state and the host's own accesses (10_state.md R35, R48). -/

namespace Sys2Proof.Proofs.HostAccesses

open Sys2Proof Sys2Proof.Machine

/-- Settles O1, field by field; the empty buffer has no written cell. -/
theorem resetLeavesEverythingUnwritten : Obligations.ResetLeavesEverythingUnwritten :=
  fun _ => ⟨rfl, rfl, rfl, rfl, rfl, fun i _ => Memory.read_nil i, rfl, rfl, rfl⟩

/-- Settles O6: none of the actions issues a word, so the step is the action's effect; the new `BUF` is the old one
with one cell written. -/
theorem hostAccessesStoreAndReadBack : Obligations.HostAccessesStoreAndReadBack := by
  intro s rest
  have effect {act : HostAction} (ha : ∀ w, act ≠ .issue w) (h : s.host = act :: rest) :
      step s = .next (hostEffect { s with host := rest } act) := step_hostEffect h ha
  refine ⟨fun _ => effect (by simp), fun _ => effect (by simp), fun i b h => ?_, fun _ => effect (by simp),
    fun _ _ => effect (by simp), fun _ => effect (by simp)⟩
  exact ⟨Memory.write s.BUF i.val b, effect (by simp) h, fun k => Memory.read_write s.BUF i.val k b⟩

end Sys2Proof.Proofs.HostAccesses
end

section
/-! PROOF. The legal words (30_encoding.md R87, R88): the classification is the decoder's verdict with the width test, and
the legal words of a width are the words of its commands. -/

namespace Sys2Proof.Proofs.LegalWords

open Sys2Proof Sys2Proof.Machine Sys2Proof.Laws Sys2Proof.Proofs.WordFields Sys2Proof.Proofs.Configuration

/-! ## The decoder's verdict -/

/-- What R87 asks of `OPC` and `ENV` on an instance of width `W`, its lines 3 to 5. -/
def SelectsCommand (W : ℕ) (env : Bool) (opc : ℕ) : Prop :=
  (1 ≤ opc ∧ opc ≤ 15) ∧ (env = true → opc = 12 ∨ opc = 13) ∧ (opc = 15 → W = 64)

theorem plainForm_isOk (env : Bool) (i : Instr) : (∃ j, plainForm env i = .ok j) ↔ env = false := by
  cases env <;> simp [plainForm]

theorem decodeOpc_isOk (wd : Width) (env : Bool) (opc : ℕ) :
    (∃ i, decodeOpc wd env opc = .ok i) ↔ SelectsCommand wd.bits env opc := by
  unfold decodeOpc SelectsCommand
  split
  -- ENC and DEC, REMR, no command; the rest exist with `ENV = 0` only (R84)
  case h_12 | h_13 => simp
  case h_15 => cases env <;> cases wd <;> simp [Width.bits]
  case h_16 =>
    simp only [reduceCtorEq, exists_false, false_iff]
    rintro ⟨⟨h1, h15⟩, -⟩
    interval_cases opc <;> contradiction
  all_goals simp [plainForm_isOk]

theorem decode_eq_ok_iff {w : CmdWord} {i : Instr} :
    decode w = .ok i ↔ reservedOf w = 0 ∧
      ∃ wd, widthOfCode (wselOf w) = some wd ∧ decodeOpc wd (envOf w) (opcOf w).toNat = .ok i := by
  unfold decode
  split_ifs with hres
  · exact iff_of_false nofun fun h => hres h.1
  · cases widthOfCode (wselOf w) <;> simp [not_not.1 hres]

/-! ## The classification -/

/-- `WSEL_OF(W)` is the code that names the width `W`, the second line of R87. -/
theorem wselOf_line_iff (W : ℕ) (c : BitVec 2) :
    ((W = 16 ∧ c = 0b00) ∨ (W = 32 ∧ c = 0b01) ∨ (W = 64 ∧ c = 0b10)) ↔
      ∃ wd, widthOfCode c = some wd ∧ wd.bits = W := by
  constructor
  · rintro (⟨rfl, rfl⟩ | ⟨rfl, rfl⟩ | ⟨rfl, rfl⟩)
    exacts [⟨.w16, rfl, rfl⟩, ⟨.w32, rfl, rfl⟩, ⟨.w64, rfl, rfl⟩]
  · rintro ⟨wd, hwd, rfl⟩
    rw [← wselCode_of_widthOfCode hwd]
    cases wd <;> decide

theorem legalOn_iff_lines (W : ℕ) (w : CmdWord) :
    legalOn W w = true ↔ reservedOf w = 0 ∧ (∃ wd, widthOfCode (wselOf w) = some wd ∧ wd.bits = W) ∧
      SelectsCommand W (envOf w) (opcOf w).toNat := by
  have opc_eq (k : BitVec 8) : opcOf w = k ↔ (opcOf w).toNat = k.toNat := BitVec.toNat_eq
  simp only [legalOn, wselOf_line_iff, opc_eq, Bool.if_false_left, Bool.and_eq_true, Bool.not_eq_true',
    decide_eq_false_iff_not, ne_eq, not_and_not_right, not_not, Bool.and_true]
  rfl

theorem legalOn_iff_decode (W : ℕ) (w : CmdWord) :
    legalOn W w = true ↔ ∃ i, decode w = .ok i ∧ WellFormed W i := by
  simp only [legalOn_iff_lines, decode_eq_ok_iff]
  constructor
  · rintro ⟨hres, ⟨wd, hwd, rfl⟩, hsel⟩
    obtain ⟨i, hi⟩ := (decodeOpc_isOk ..).2 hsel
    exact ⟨i, ⟨hres, wd, hwd, hi⟩, congrArg Width.bits (fields_of_decodeOpc hi).1⟩
  · rintro ⟨i, ⟨hres, wd, hwd, hi⟩, hW⟩
    have hbits : wd.bits = W := (congrArg Width.bits (fields_of_decodeOpc hi).1).symm.trans hW
    exact ⟨hres, ⟨wd, hwd, hbits⟩, hbits ▸ (decodeOpc_isOk ..).1 ⟨i, hi⟩⟩

/-! ## Issuing a word -/

theorem exec_illegal {i : Instr} {s : State} (hf : s.faulted = false) (hc : configOk s.cfg = true)
    (hw : ¬ WellFormed s.cfg.W i) : exec i s = .next (s.raise .illegalCommand (encode i)) := by
  cases i <;> exact command_illegal hf hc hw

/-- An illegal word faults whether the decoder refuses it or names a command of another width. -/
theorem issue_illegal {w : CmdWord} {s : State} (hf : s.faulted = false) (hc : configOk s.cfg = true)
    (hw : legalOn s.cfg.W w = false) : issue w s = .next (s.raise .illegalCommand w) := by
  cases hd : decode w with
  | ok i =>
    have hwf : ¬ WellFormed s.cfg.W i := fun h =>
      absurd ((legalOn_iff_decode ..).2 ⟨i, hd, h⟩) (by simp [hw])
    simp only [issue, hd, exec_illegal hf hc hwf, encode_of_decode hd]
  | error e => simp [issue, hd, issueIllegal, hf, hc]

/-- Settles O18: the classification read line by line is the decoder's own chain of tests. -/
theorem illegalWordsAreThoseClassified : Obligations.IllegalWordsAreThoseClassified := by
  intro s w rest hc
  refine ⟨legalOn_iff_decode .., fun hf hs hw => (step_issue hs).trans (issue_illegal hf hc hw), fun hs hw => ?_⟩
  obtain ⟨i, hd, hwf⟩ := (legalOn_iff_decode ..).1 hw
  exact ⟨i, encode_of_decode hd, hwf, by rw [step_issue hs, issue, hd]⟩

/-! ## Counting the legal words -/

theorem encodedFields (i : Instr) : EncodedFields.Statement i := by
  cases i with
  | add w => exact EncodedFields.add w
  | sub w => exact EncodedFields.sub w
  | neg w => exact EncodedFields.neg w
  | dbl w => exact EncodedFields.dbl w
  | mul w => exact EncodedFields.mul w
  | sqr w => exact EncodedFields.sqr w
  | redw w => exact EncodedFields.redw w
  | rednz w => exact EncodedFields.rednz w
  | inv w => exact EncodedFields.inv w
  | sqrt w => exact EncodedFields.sqrt w
  | sqrtr w => exact EncodedFields.sqrtr w
  | enc w => exact EncodedFields.enc w
  | encEnv w => exact EncodedFields.encEnv w
  | dec w => exact EncodedFields.dec w
  | decEnv w => exact EncodedFields.decEnv w
  | isodd w => exact EncodedFields.isodd w
  | remr => exact EncodedFields.remr

theorem bits_injective : Function.Injective Width.bits := fun v w h => by
  cases v <;> cases w <;> cases h <;> rfl

theorem widthOfCode_wselCode (wd : Width) : widthOfCode (wselCode wd) = some wd := by
  cases wd <;> rfl

/-- A command is the one its own fields select. -/
theorem decodeOpc_fields (i : Instr) : decodeOpc i.width i.env i.opc.toNat = .ok i := by
  cases i <;> rfl

theorem decode_encode (i : Instr) : decode (encode i) = .ok i := by
  obtain ⟨hopc, hwsel, henv, hres⟩ := encodedFields i
  refine decode_eq_ok_iff.2 ⟨hres, i.width, ?_, ?_⟩
  · rw [hwsel, widthOfCode_wselCode]
  · rw [henv, hopc, decodeOpc_fields]

theorem encode_injective : Function.Injective encode := fun i j h => by
  simpa [decode_encode] using congrArg decode h

/-- The commands that exist at a width: 16 forms, and REMR at 64 bits (30_encoding.md R88). -/
def commandsOf (wd : Width) : List Instr :=
  .add wd :: .sub wd :: .neg wd :: .dbl wd :: .mul wd :: .sqr wd :: .redw wd :: .rednz wd :: .inv wd :: .sqrt wd ::
    .sqrtr wd :: .enc wd :: .encEnv wd :: .dec wd :: .decEnv wd :: .isodd wd ::
    if wd = .w64 then [.remr] else []

theorem mem_commandsOf {wd : Width} {i : Instr} : i ∈ commandsOf wd ↔ i.width = wd := by
  cases i <;> simp [commandsOf, Instr.width, eq_comm]

theorem commandsOf_nodup (wd : Width) : (commandsOf wd).Nodup := by
  cases wd <;> decide

/-- The words of the commands of a width are its legal words, each once. -/
theorem words_of_commandsOf (wd : Width) :
    ((commandsOf wd).map encode).Nodup ∧ ∀ w, w ∈ (commandsOf wd).map encode ↔ legalOn wd.bits w = true := by
  refine ⟨(commandsOf_nodup wd).map encode_injective, fun w => ?_⟩
  simp only [List.mem_map, mem_commandsOf, legalOn_iff_decode]
  constructor
  · rintro ⟨i, rfl, rfl⟩
    exact ⟨i, decode_encode i, rfl⟩
  · rintro ⟨i, hd, hw⟩
    exact ⟨i, bits_injective hw, encode_of_decode hd⟩

/-- Settles O19: the legal words are the words of the commands, and the encoder sends no two commands to one word. -/
theorem legalWordCounts : Obligations.LegalWordCounts := by
  have count (wd : Width) {n : ℕ} (hn : (commandsOf wd).length = n) :
      ∃ l : List CmdWord, l.Nodup ∧ l.length = n ∧ ∀ w, w ∈ l ↔ legalOn wd.bits w = true := by
    obtain ⟨hnodup, hmem⟩ := words_of_commandsOf wd
    exact ⟨_, hnodup, by rw [List.length_map, hn], hmem⟩
  exact ⟨count .w64 rfl, count .w32 rfl, count .w16 rfl⟩

end Sys2Proof.Proofs.LegalWords
end

section
/-! PROOF. What the statements about single commands share: the order of the faults, how a command on field elements
completes, and what is in `R` then. -/

namespace Sys2Proof.Proofs.CommandResults

open Sys2Proof Sys2Proof.Machine Sys2Proof.Proofs.Configuration Sys2Proof.Proofs.LegalWords

/-- The byte-length parameters need to be legal for the commands that use them (log entry 9). -/
theorem faultsInOrder {i : Instr} {s : State} (hf : s.faulted = false)
    (hred : (∃ w, i = .redw w ∨ i = .rednz w) → lengthOk s.cfg s.cfg.RED_BYTES = true)
    (henv : (∃ w, i = .encEnv w ∨ i = .decEnv w) → lengthOk s.cfg s.cfg.ENV_BYTES = true) : FaultsInOrder i s :=
  ⟨exec_configInvalid hf, exec_illegal hf, fun hr _ => exec_raises hr hred henv⟩

theorem ready_configOk {i : Instr} {s : State} (hr : s.Ready i) : configOk s.cfg = true := hr.2.1

theorem ready_M_lt {i : Instr} {s : State} (hr : s.Ready i) : s.cfg.M < 2 ^ s.cfg.W :=
  (configOk_bounds (ready_configOk hr)).2.1

theorem unaryCommand_present {i : Instr} {s : State} {a : BitVec 128} {f : ℕ → ℕ} {v : ℕ} (hr : s.Ready i)
    (hA : s.A = some a) (ha : a.toNat < s.cfg.M) (hv : f a.toNat = v) (hvM : v < s.cfg.M) :
    unaryCommand i s f = .next (s.present v) := by
  have operand : fieldOperand s = .ok a.toNat := fieldOperand_eq_ok.2 ⟨⟨a, hA, rfl⟩, ha⟩
  rw [unaryCommand, command_ready hr, operand, ← result_eq_present (hvM.trans (ready_M_lt hr)), ← hv]
  rfl

theorem binaryCommand_present {i : Instr} {s : State} {a b : BitVec 128} {f : ℕ → ℕ → ℕ} {v : ℕ} (hr : s.Ready i)
    (hA : s.A = some a) (hB : s.B = some b) (ha : a.toNat < s.cfg.M) (hb : b.toNat < s.cfg.M)
    (hv : f a.toNat b.toNat = v) (hvM : v < s.cfg.M) : binaryCommand i s f = .next (s.present v) := by
  have operands : fieldOperands s = .ok (a.toNat, b.toNat) :=
    fieldOperands_eq_ok.2 ⟨⟨a, hA, rfl⟩, ⟨b, hB, rfl⟩, ha, hb⟩
  rw [binaryCommand, command_ready hr, operands, ← result_eq_present (hvM.trans (ready_M_lt hr)), ← hv]
  rfl

/-- `s` with `a` in `A` and `b` in `B`, the state `resultOf` runs a command from. -/
def withOperands (s : State) (a b : ℕ) : State :=
  { s with A := some (BitVec.ofNat 128 a), B := some (BitVec.ofNat 128 b) }

/-- A field element fits every register of at least 64 bits. -/
theorem toNat_ofNat_element {c : Config} {n x : ℕ} (hc : configOk c = true) (hn : 64 ≤ n) (hx : x < c.M) :
    (BitVec.ofNat n x).toNat = x := by
  obtain ⟨-, hM, hW⟩ := configOk_bounds hc
  have hpow : 2 ^ c.W ≤ 2 ^ n := Nat.pow_le_pow_right (by decide) (hW.trans hn)
  rw [BitVec.toNat_ofNat, Nat.mod_eq_of_lt (hx.trans (hM.trans_le hpow))]

/-- A field element that a command presents is what is in `R`. -/
theorem resultOf_of_present {i : Instr} {s : State} {a b v : ℕ} (hc : configOk s.cfg = true) (hv : v < s.cfg.M)
    (h : exec i (withOperands s a b) = .next ((withOperands s a b).present v)) : resultOf i s a b = some v := by
  have inR : resultOf i s a b = some (BitVec.ofNat 64 v).toNat := by
    rw [withOperands] at h
    rw [resultOf, h]
    rfl
  rw [inR, toNat_ofNat_element hc le_rfl hv]

end Sys2Proof.Proofs.CommandResults
end

section
/-! PROOF. ADD, DBL, SUB and NEG (40_add_sub_neg.md). -/

namespace Sys2Proof.Proofs.AddSubNeg

open Sys2Proof Sys2Proof.Machine Sys2Proof.Proofs.CommandResults

/-- The bound of `M` the arithmetic laws ask for. -/
theorem ready_M_le {i : Instr} {s : State} (hr : s.Ready i) : s.cfg.M ≤ 2 ^ s.cfg.W - 1 :=
  Nat.le_sub_one_of_lt (ready_M_lt hr)

theorem exec_add {w : Width} {s : State} {a b : BitVec 128} (hr : s.Ready (.add w)) (hA : s.A = some a)
    (hB : s.B = some b) (ha : a.toNat < s.cfg.M) (hb : b.toNat < s.cfg.M) :
    exec (.add w) s = .next (s.present ((a.toNat + b.toNat) % s.cfg.M)) :=
  binaryCommand_present hr hA hB ha hb (addMod_eq (ready_M_le hr) ha hb) (Nat.mod_lt _ (Nat.zero_lt_of_lt ha))

/-- Settles O33: the adder's one correction gives the remainder. -/
theorem addGivesTheSumModM : Obligations.AddGivesTheSumModM := fun w _ hf =>
  ⟨hasFields (.add w), faultsInOrder hf (by simp) (by simp), fun hr _ _ => exec_add hr⟩

theorem exec_dbl {w : Width} {s : State} {a : BitVec 128} (hr : s.Ready (.dbl w)) (hA : s.A = some a)
    (ha : a.toNat < s.cfg.M) : exec (.dbl w) s = .next (s.present (2 * a.toNat % s.cfg.M)) :=
  have double : addMod s.cfg.W s.cfg.M a.toNat a.toNat = 2 * a.toNat % s.cfg.M := by
    rw [addMod_eq (ready_M_le hr) ha ha, Nat.two_mul]
  unaryCommand_present hr hA ha double (Nat.mod_lt _ (Nat.zero_lt_of_lt ha))

/-- Settles O34: the adder with both inputs `A`. -/
theorem dblGivesTwiceTheOperandModM : Obligations.DblGivesTwiceTheOperandModM := fun w _ hf =>
  ⟨hasFields (.dbl w), faultsInOrder hf (by simp) (by simp), fun hr _ => exec_dbl hr⟩

/-- `a + (M - b)` and the integer `a - b` differ by one `M`. -/
theorem add_sub_mod_eq_toNat_emod {M a b : ℕ} (hb : b ≤ M) : (a + (M - b)) % M = (((a : ℤ) - b) % M).toNat := by
  have hint : (((a + (M - b)) % M : ℕ) : ℤ) = ((a : ℤ) - b) % M := by
    push_cast [Nat.cast_sub hb]
    rw [show (a : ℤ) + (M - b) = a - b + M by ring, Int.add_emod_right]
  rw [← hint, Int.toNat_natCast]

theorem exec_sub {w : Width} {s : State} {a b : BitVec 128} (hr : s.Ready (.sub w)) (hA : s.A = some a)
    (hB : s.B = some b) (ha : a.toNat < s.cfg.M) (hb : b.toNat < s.cfg.M) :
    exec (.sub w) s = .next (s.present (((a.toNat : ℤ) - b.toNat) % s.cfg.M).toNat) := by
  rw [← add_sub_mod_eq_toNat_emod hb.le]
  exact binaryCommand_present hr hA hB ha hb (subMod_eq (ready_M_le hr) ha hb) (Nat.mod_lt _ (Nat.zero_lt_of_lt ha))

/-- Settles O35: the subtractor's one correction gives the non-negative remainder. -/
theorem subGivesTheDifferenceModM : Obligations.SubGivesTheDifferenceModM := fun w _ hf =>
  ⟨hasFields (.sub w), faultsInOrder hf (by simp) (by simp), fun hr _ _ => exec_sub hr⟩

theorem exec_neg {w : Width} {s : State} {a : BitVec 128} (hr : s.Ready (.neg w)) (hA : s.A = some a)
    (ha : a.toNat < s.cfg.M) :
    exec (.neg w) s = .next (s.present (if a.toNat = 0 then 0 else s.cfg.M - a.toNat)) :=
  unaryCommand_present hr hA ha (negMod_eq (ready_M_le hr) ha) (by split <;> omega)

/-- Settles O36: the negator selects 0 for 0, so that it never represents `-0` as `M`. -/
theorem negGivesTheNegativeModM : Obligations.NegGivesTheNegativeModM := fun w _ hf =>
  ⟨hasFields (.neg w), faultsInOrder hf (by simp) (by simp), fun hr _ => exec_neg hr⟩

/-! ## The laws of R105 -/

theorem resultOf_add {w : Width} {s : State} {x y : ℕ} (hr : s.Ready (.add w)) (hx : x < s.cfg.M)
    (hy : y < s.cfg.M) : resultOf (.add w) s x y = some ((x + y) % s.cfg.M) := by
  have ex : (BitVec.ofNat 128 x).toNat = x := toNat_ofNat_element (ready_configOk hr) (by decide) hx
  have ey : (BitVec.ofNat 128 y).toNat = y := toNat_ofNat_element (ready_configOk hr) (by decide) hy
  have run : exec (.add w) (withOperands s x y) = _ :=
    exec_add hr rfl rfl (ex.trans_lt hx) (ey.trans_lt hy)
  rw [ex, ey] at run
  exact resultOf_of_present (ready_configOk hr) (Nat.mod_lt _ (Nat.zero_lt_of_lt hx)) run

theorem resultOf_neg {w : Width} {s : State} {x y : ℕ} (hr : s.Ready (.neg w)) (hx : x < s.cfg.M) :
    resultOf (.neg w) s x y = some (if x = 0 then 0 else s.cfg.M - x) := by
  have ex : (BitVec.ofNat 128 x).toNat = x := toNat_ofNat_element (ready_configOk hr) (by decide) hx
  have run : exec (.neg w) (withOperands s x y) = _ := exec_neg hr rfl (ex.trans_lt hx)
  rw [ex] at run
  exact resultOf_of_present (ready_configOk hr) (by split <;> omega) run

/-- Settles O37: ADD's result is a sum modulo `M`, and NEG's is the number that complements `x` to 0 or to `M`. -/
theorem additionHasNeutralAndInverse : Obligations.AdditionHasNeutralAndInverse := by
  intro w s x hr hx
  refine ⟨?_, _, resultOf_neg hr hx, ?_⟩
  · rw [resultOf_add hr hx (Nat.zero_lt_of_lt hx), Nat.add_zero, Nat.mod_eq_of_lt hx]
  · rw [resultOf_add hr hx (by split <;> omega)]
    split
    · next h0 => simp [h0]
    · rw [Nat.add_sub_cancel' hx.le, Nat.mod_self]

end Sys2Proof.Proofs.AddSubNeg
end

section
/-! PROOF. MUL, SQR, REDW, REDNZ and REMR (41_mul_reduce.md). -/

namespace Sys2Proof.Proofs.MulReduce

open Sys2Proof Sys2Proof.Machine Sys2Proof.Proofs.CommandResults

/-! ## The reducer -/

theorem reduceWide_exact {c : Config} {p : ℕ} (hc : configOk c = true) (hp : p / 2 ^ c.W < c.M) :
    reduceWide c p = p % c.M := by
  obtain ⟨h2, hM, -⟩ := configOk_bounds hc
  unfold reduceWide
  split_ifs with hW
  · rw [hW] at hM hp
    exact remByReciprocal_exact (Nat.zero_lt_of_lt h2) hM hp
  · rfl

/-- Settles O40: the direct remainder is one by definition, and the reciprocal path is the exact 2-by-1 division. -/
theorem reductionIsExact : Obligations.ReductionIsExact := fun _ _ => reduceWide_exact

/-! ## Products -/

theorem reduceWide_mul {c : Config} {a b : ℕ} (hc : configOk c = true) (ha : a < c.M) (hb : b < c.M) :
    reduceWide c (a * b) = a * b % c.M :=
  reduceWide_exact hc (product_high (configOk_bounds hc).2.1 ha hb)

theorem exec_mul {w : Width} {s : State} {a b : BitVec 128} (hr : s.Ready (.mul w)) (hA : s.A = some a)
    (hB : s.B = some b) (ha : a.toNat < s.cfg.M) (hb : b.toNat < s.cfg.M) :
    exec (.mul w) s = .next (s.present (a.toNat * b.toNat % s.cfg.M)) :=
  binaryCommand_present (f := fun a b => reduceWide s.cfg (a * b)) hr hA hB ha hb
    (reduceWide_mul (ready_configOk hr) ha hb) (Nat.mod_lt _ (Nat.zero_lt_of_lt ha))

/-- Settles O38: the product of two field elements meets the reducer's precondition. -/
theorem mulGivesTheProductModM : Obligations.MulGivesTheProductModM := fun w _ hf =>
  ⟨hasFields (.mul w), faultsInOrder hf (by simp) (by simp), fun hr _ _ => exec_mul hr⟩

theorem exec_sqr {w : Width} {s : State} {a : BitVec 128} (hr : s.Ready (.sqr w)) (hA : s.A = some a)
    (ha : a.toNat < s.cfg.M) : exec (.sqr w) s = .next (s.present (a.toNat * a.toNat % s.cfg.M)) :=
  unaryCommand_present hr hA ha (reduceWide_mul (ready_configOk hr) ha ha) (Nat.mod_lt _ (Nat.zero_lt_of_lt ha))

/-- Settles O39: the multiplier with both inputs `A`. -/
theorem sqrGivesTheSquareModM : Obligations.SqrGivesTheSquareModM := fun w _ hf =>
  ⟨hasFields (.sqr w), faultsInOrder hf (by simp) (by simp), fun hr _ => exec_sqr hr⟩

/-! ## The other commands with a present result -/

/-- A ready command whose body gives a result of at most `W` bits presents it. -/
theorem command_present {i : Instr} {s : State} {body : Except Stop State} {v : ℕ} (hr : s.Ready i)
    (hb : body = .ok (s.result v)) (hv : v < 2 ^ s.cfg.W) : command i s body = .next (s.present v) := by
  rw [command_ready hr, hb, ← result_eq_present hv]

/-- REDW and REDNZ present a function of the big-endian operand. -/
theorem reduceCommand_present {i : Instr} {s : State} {n : BitVec 8} {bs : List Byte} {f : ℕ → ℕ} (hr : s.Ready i)
    (hlen : lengthOk s.cfg s.cfg.RED_BYTES = true) (hn : s.BLEN = some n) (hnl : n.toNat = s.cfg.RED_BYTES)
    (hbs : bs.length = s.cfg.RED_BYTES) (hold : Holds s.BUF bs) (hf : f (beValue bs) < s.cfg.M) :
    reduceCommand i s f = .next (s.present (f (beValue bs))) := by
  have length : checkLength s.cfg s.cfg.RED_BYTES = .ok () := by simp [checkLength, hlen]
  have operand : byteOperand s s.cfg.RED_BYTES = .ok bs := byteOperand_eq_ok.2 ⟨⟨n, hn, hnl⟩, hbs, hold⟩
  exact command_present hr (by rw [length, operand]; rfl) (hf.trans (ready_M_lt hr))

/-- Settles O41: the remainder is taken of the whole operand, so its high word does not matter. -/
theorem redwGivesTheRemainder : Obligations.RedwGivesTheRemainder := by
  intro w s hf hlen
  refine ⟨hasFields (.redw w), faultsInOrder hf (fun _ => hlen) (by simp), fun hr n bs hn hnl hbs hold => ?_⟩
  have hM : 2 ≤ s.cfg.M := (configOk_bounds (ready_configOk hr)).1
  exact reduceCommand_present (f := (· % s.cfg.M)) hr hlen hn hnl hbs hold (Nat.mod_lt _ (Nat.zero_lt_of_lt hM))

theorem mod_pred_succ_lt {M : ℕ} (hM : 2 ≤ M) (x : ℕ) : x % (M - 1) + 1 < M := by
  have : x % (M - 1) < M - 1 := Nat.mod_lt _ (by omega)
  omega

/-- Settles O42: `M` of at least 2 leaves a nonzero divisor `M - 1`. -/
theorem rednzGivesTheNonzeroRemainder : Obligations.RednzGivesTheNonzeroRemainder := by
  intro w s hf hlen
  refine ⟨hasFields (.rednz w), faultsInOrder hf (fun _ => hlen) (by simp), fun hr n bs hn hnl hbs hold => ?_⟩
  have hlt : beValue bs % (s.cfg.M - 1) + 1 < s.cfg.M :=
    mod_pred_succ_lt (configOk_bounds (ready_configOk hr)).1 _
  exact ⟨reduceCommand_present (f := (· % (s.cfg.M - 1) + 1)) hr hlen hn hnl hbs hold hlt,
    Nat.succ_pos _, hlt⟩

/-- Settles O43: the reciprocal made for the divisor divides exactly, and REMR is ready at 64 bits only. -/
theorem remrGivesTheRemainder : Obligations.RemrGivesTheRemainder := by
  intro s hf
  refine ⟨hasFields .remr, faultsInOrder hf (by simp) (by simp), fun hr x m hA hB hm h64 hx => ?_⟩
  have hW : 64 = s.cfg.W := hr.2.2
  have operands : remrOperands s = .ok (x.toNat, m.toNat) :=
    remrOperands_eq_ok.2 ⟨⟨x, hA, rfl⟩, ⟨m, hB, rfl⟩, hm, h64, hx⟩
  have fits : x.toNat % m.toNat < 2 ^ s.cfg.W := by
    rw [← hW]
    exact (Nat.mod_lt _ hm).trans h64
  refine command_present hr ?_ fits
  rw [operands, ← remByReciprocal_exact hm h64 hx]
  rfl

/-! ## The laws of R134 -/

theorem resultOf_mul {w : Width} {s : State} {x y : ℕ} (hr : s.Ready (.mul w)) (hx : x < s.cfg.M)
    (hy : y < s.cfg.M) : resultOf (.mul w) s x y = some (x * y % s.cfg.M) := by
  have ex : (BitVec.ofNat 128 x).toNat = x := toNat_ofNat_element (ready_configOk hr) (by decide) hx
  have ey : (BitVec.ofNat 128 y).toNat = y := toNat_ofNat_element (ready_configOk hr) (by decide) hy
  have run : exec (.mul w) (withOperands s x y) = _ :=
    exec_mul hr rfl rfl (ex.trans_lt hx) (ey.trans_lt hy)
  rw [ex, ey] at run
  exact resultOf_of_present (ready_configOk hr) (Nat.mod_lt _ (Nat.zero_lt_of_lt hx)) run

/-- INV presents an inverse where there is one (42_inv_sqrt.md R150). -/
theorem exec_inv_of_coprime {w : Width} {s : State} {a : BitVec 128} (hr : s.Ready (.inv w)) (hA : s.A = some a)
    (ha : a.toNat < s.cfg.M) (hcop : a.toNat.Coprime s.cfg.M) :
    ∃ r, r < s.cfg.M ∧ a.toNat * r % s.cfg.M = 1 ∧ exec (.inv w) s = .next (s.present r) := by
  obtain ⟨h2, hM, -⟩ := configOk_bounds (ready_configOk hr)
  obtain ⟨-, r, hinv, hrM, hone⟩ | ⟨hncop, -⟩ := extEuclidInv_spec (a := a.toNat) h2 hM
  · have operand : fieldOperand s = .ok a.toNat := fieldOperand_eq_ok.2 ⟨⟨a, hA, rfl⟩, ha⟩
    have body : (fieldOperand s).map (fun a => s.optional (extEuclidInv s.cfg.W s.cfg.M a)) = .ok (s.result r) := by
      rw [operand, Except.map, hinv, State.optional_some]
    exact ⟨r, hrM, hone, command_present hr body (hrM.trans hM)⟩
  · exact absurd hcop hncop

theorem resultOf_inv_of_coprime {w : Width} {s : State} {x y : ℕ} (hr : s.Ready (.inv w)) (hx : x < s.cfg.M)
    (hcop : x.Coprime s.cfg.M) :
    ∃ r, r < s.cfg.M ∧ x * r % s.cfg.M = 1 ∧ resultOf (.inv w) s x y = some r := by
  have ex : (BitVec.ofNat 128 x).toNat = x := toNat_ofNat_element (ready_configOk hr) (by decide) hx
  obtain ⟨r, hrM, hone, run⟩ := exec_inv_of_coprime (s := withOperands s x y) hr rfl (ex.trans_lt hx)
    (by rwa [ex])
  rw [ex] at hone
  exact ⟨r, hrM, hone, resultOf_of_present (ready_configOk hr) hrM run⟩

/-- Reducing the sum before or the products after the multiplication gives one remainder. -/
theorem mul_add_mod_mod (x y z M : ℕ) : x * ((y + z) % M) % M = (x * y % M + x * z % M) % M := by
  rw [Nat.mul_mod_mod, Nat.mul_add, Nat.add_mod]

/-- Settles O44: the results of MUL, ADD and INV are the product, the sum and an inverse modulo `M`, and below a prime
only 0 has no inverse. -/
theorem multiplicationDistributesOverAddition : Obligations.MultiplicationDistributesOverAddition := by
  intro w s x y z hr hx hy hz
  have below (n : ℕ) : n % s.cfg.M < s.cfg.M := Nat.mod_lt _ (Nat.zero_lt_of_lt hx)
  have hadd {u v : ℕ} : u < s.cfg.M → v < s.cfg.M → resultOf (.add w) s u v = some ((u + v) % s.cfg.M) :=
    AddSubNeg.resultOf_add hr
  refine ⟨?_, ?_, fun hprime hx0 => ?_⟩
  · refine ⟨_, _, _, _, hadd hy hz, resultOf_mul hr hx (below _), resultOf_mul hr hx hy, resultOf_mul hr hx hz, ?_⟩
    rw [hadd (below _) (below _), mul_add_mod_mod]
  · rw [resultOf_mul hr hx hy, resultOf_mul hr hy hx, Nat.mul_comm]
  · have hcop : x.Coprime s.cfg.M := (Nat.coprime_of_lt_prime hx0 hx hprime).symm
    obtain ⟨i, hi, hone, hinv⟩ := resultOf_inv_of_coprime (w := w) (y := 0) hr hx hcop
    exact ⟨i, hinv, by rw [resultOf_mul hr hx hi, hone]⟩

end Sys2Proof.Proofs.MulReduce
end

section
/-! PROOF. INV, SQRT and SQRTR (42_inv_sqrt.md). -/

namespace Sys2Proof.Proofs.InvSqrt

open Sys2Proof Sys2Proof.Machine Sys2Proof.Proofs.CommandResults

/-! ## The modulus check -/

/-- Settles O31: step 3 of 60_exceptions.md R202 comes before any look at the operands, and a root command uses no
byte-length parameter. -/
theorem rootsFaultOnUnsupportedModulus : Obligations.RootsFaultOnUnsupportedModulus := by
  intro i s hroot hr hM
  have first : operandFailure i s = some .unsupportedModulus := if_pos ⟨hroot, hM⟩
  refine exec_raises hr ?_ ?_ first
  all_goals rintro ⟨w, rfl | rfl⟩ <;> cases hroot

/-! ## The optional result -/

theorem optional_some_eq_present {s : State} {r : ℕ} (hr : r < 2 ^ s.cfg.W) : s.optional (some r) = s.present r :=
  result_eq_present hr

theorem optional_none_eq_absent (s : State) : s.optional none = s.absent := rfl

/-! ## INV -/

theorem exec_inv {w : Width} {s : State} {a : BitVec 128} (hr : s.Ready (.inv w)) (hA : s.A = some a)
    (ha : a.toNat < s.cfg.M) : exec (.inv w) s = .next (s.optional (extEuclidInv s.cfg.W s.cfg.M a.toNat)) := by
  have operand : fieldOperand s = .ok a.toNat := fieldOperand_eq_ok.2 ⟨⟨a, hA, rfl⟩, ha⟩
  rw [exec, execInv, command_ready hr, operand]
  rfl

theorem exec_inv_of_not_coprime {w : Width} {s : State} {a : BitVec 128} (hr : s.Ready (.inv w)) (hA : s.A = some a)
    (ha : a.toNat < s.cfg.M) (hncop : ¬ a.toNat.Coprime s.cfg.M) : exec (.inv w) s = .next s.absent := by
  obtain ⟨h2, hM, -⟩ := configOk_bounds (ready_configOk hr)
  obtain ⟨hcop, -⟩ | ⟨-, hnone⟩ := extEuclidInv_spec (a := a.toNat) h2 hM
  · exact absurd hcop hncop
  · rw [exec_inv hr hA ha, hnone, optional_none_eq_absent]

/-- Settles O45: the Euclidean loop finds an inverse exactly for an operand coprime to `M`. -/
theorem invGivesTheInverseOrNone : Obligations.InvGivesTheInverseOrNone := fun w _ hf =>
  ⟨hasFields (.inv w), faultsInOrder hf (by simp) (by simp), fun hr _ hA ha =>
    ⟨MulReduce.exec_inv_of_coprime hr hA ha, exec_inv_of_not_coprime hr hA ha⟩⟩

theorem coprime_of_mul_mod_eq_one {M a d : ℕ} (h : a * d % M = 1) : a.Coprime M :=
  Nat.coprime_of_mul_modEq_one d <| by rw [Nat.ModEq, h, ← h, Nat.mod_mod]

/-- Below `M` there is at most one inverse modulo `M`. -/
theorem inverse_unique {M a d e : ℕ} (hd : d < M) (he : e < M) (hda : a * d % M = 1) (hea : a * e % M = 1) :
    d = e := by
  have hcop : M.gcd a = 1 := (coprime_of_mul_mod_eq_one hda).symm
  have hmod : a * d ≡ a * e [MOD M] := hda.trans hea.symm
  exact (hmod.cancel_left_of_coprime hcop).eq_of_lt_of_lt hd he

/-- Fermat's little theorem: `a^(M-2)` is an inverse of a nonzero `a` modulo a prime `M`. -/
theorem mul_pow_sub_two_mod {M a : ℕ} (hM : M.Prime) (ha0 : a ≠ 0) (ha : a < M) : a * (a ^ (M - 2) % M) % M = 1 := by
  have hcop : a.Coprime M := (Nat.coprime_of_lt_prime ha0 ha hM).symm
  have fermat : a ^ (M - 1) % M = 1 % M := Nat.totient_prime hM ▸ Nat.ModEq.pow_totient hcop
  have hexp : M - 2 + 1 = M - 1 := by have := hM.two_le; omega
  rw [Nat.mul_mod_mod, ← pow_succ', hexp, fermat, Nat.mod_eq_of_lt hM.one_lt]

/-- Settles O46: INV's inverse and Fermat's power are both inverses below `M`, so they are the same; below a prime only
0 is not coprime to it. -/
theorem inverseIsFermatsPower : Obligations.InverseIsFermatsPower := by
  intro w s a hr hprime hA ha
  refine ⟨fun ha0 => ?_, fun ha0 => ?_⟩
  · have hpow := mul_pow_sub_two_mod hprime ha0 ha
    obtain ⟨r, hrM, hone, run⟩ :=
      MulReduce.exec_inv_of_coprime hr hA ha (Nat.coprime_of_lt_prime ha0 ha hprime).symm
    have same : r = a.toNat ^ (s.cfg.M - 2) % s.cfg.M :=
      inverse_unique hrM (Nat.mod_lt _ hprime.pos) hone hpow
    exact ⟨same ▸ run, hpow⟩
  · refine exec_inv_of_not_coprime hr hA ha ?_
    rw [ha0, Nat.coprime_zero_left]
    exact hprime.ne_one

/-! ## The root and its success test -/

theorem checkModulus_ok {c : Config} (h : c.M % 4 = 3) : checkModulus c = .ok () := by simp [checkModulus, h]

theorem sqrtMod_eq {W M x r : ℕ} (h2 : 2 ≤ M) (hM : M < 2 ^ W) (hr : r = x ^ ((M + 1) / 4) % M) :
    sqrtMod W M x = if r * r % M = x then some r else none := by
  rw [sqrtMod, rootCandidate_eq hM h2, ← hr]

/-- The candidate that squares back is presented. -/
theorem optional_sqrtMod_of_root {s : State} {x r : ℕ} (hc : configOk s.cfg = true)
    (hr : r = x ^ ((s.cfg.M + 1) / 4) % s.cfg.M) (hroot : r * r % s.cfg.M = x) :
    s.optional (sqrtMod s.cfg.W s.cfg.M x) = s.present r := by
  obtain ⟨h2, hM, -⟩ := configOk_bounds hc
  have hrM : r < s.cfg.M := hr ▸ Nat.mod_lt _ (Nat.zero_lt_of_lt h2)
  rw [sqrtMod_eq h2 hM hr, if_pos hroot, optional_some_eq_present (hrM.trans hM)]

/-- A candidate that does not square back is discarded. -/
theorem optional_sqrtMod_of_not_root {s : State} {x r : ℕ} (hc : configOk s.cfg = true)
    (hr : r = x ^ ((s.cfg.M + 1) / 4) % s.cfg.M) (hroot : r * r % s.cfg.M ≠ x) :
    s.optional (sqrtMod s.cfg.W s.cfg.M x) = s.absent := by
  obtain ⟨h2, hM, -⟩ := configOk_bounds hc
  rw [sqrtMod_eq h2 hM hr, if_neg hroot, optional_none_eq_absent]

/-! ## SQRT -/

theorem exec_sqrt {w : Width} {s : State} {x : BitVec 128} (hr : s.Ready (.sqrt w)) (hM4 : s.cfg.M % 4 = 3)
    (hA : s.A = some x) (hx : x.toNat < s.cfg.M) :
    exec (.sqrt w) s = .next (s.optional (sqrtMod s.cfg.W s.cfg.M x.toNat)) := by
  have operand : fieldOperand s = .ok x.toNat := fieldOperand_eq_ok.2 ⟨⟨x, hA, rfl⟩, hx⟩
  rw [exec, execSqrt, command_ready hr, checkModulus_ok hM4, operand]
  rfl

/-- Settles O47: the candidate root is the power, and the success test decides which outcome it has. -/
theorem sqrtGivesTheRootOrNone : Obligations.SqrtGivesTheRootOrNone := by
  intro w s hf
  refine ⟨hasFields (.sqrt w), faultsInOrder hf (by simp) (by simp), fun hr x r hM4 hA hx hpow => ?_⟩
  rw [exec_sqrt hr hM4 hA hx]
  exact ⟨fun h => by rw [optional_sqrtMod_of_root (ready_configOk hr) hpow h],
    fun h => by rw [optional_sqrtMod_of_not_root (ready_configOk hr) hpow h]⟩

/-! ## SQRTR -/

theorem exec_sqrtr {w : Width} {s t : State} {num den : BitVec 128} {dinv : ℕ} (hr : s.Ready (.sqrtr w))
    (hM4 : s.cfg.M % 4 = 3) (hA : s.A = some num) (hB : s.B = some den) (hn : num.toNat < s.cfg.M)
    (hd : den.toNat < s.cfg.M) (hinv : ratioInverse s den.toNat = (dinv, t)) :
    exec (.sqrtr w) s = .next (t.optional (sqrtRatio s.cfg.W s.cfg.M num.toNat den.toNat dinv)) := by
  have operands : fieldOperands s = .ok (num.toNat, den.toNat) :=
    fieldOperands_eq_ok.2 ⟨⟨num, hA, rfl⟩, ⟨den, hB, rfl⟩, hn, hd⟩
  rw [exec, execSqrtr, command_ready hr, checkModulus_ok hM4, operands]
  simp only [Except.bind, Except.map, hinv]

theorem ratioInverse_zero (s : State) : ratioInverse s 0 = (0, s) := rfl

/-- SQRTR's `dinv` is the inverse of `den`, where there is one, and no free value is used up. -/
theorem ratioInverse_of_inverse {s : State} {den dinv : ℕ} (hc : configOk s.cfg = true) (hd : dinv < s.cfg.M)
    (hone : den * dinv % s.cfg.M = 1) : ratioInverse s den = (dinv, s) := by
  obtain ⟨h2, hM, -⟩ := configOk_bounds hc
  have hden : den ≠ 0 := by rintro rfl; simp at hone
  obtain ⟨-, r, hfound, hrM, hr1⟩ | ⟨hncop, -⟩ := extEuclidInv_spec (a := den) h2 hM
  · rw [ratioInverse, if_neg hden, hfound, inverse_unique hrM hd hr1 hone]
  · exact absurd (coprime_of_mul_mod_eq_one hone) hncop

/-- With a nonzero `den`, or `num = 0`, SQRTR's test is SQRT's. -/
theorem sqrtRatio_eq_sqrtMod {W M num den dinv : ℕ} (h : num = 0 ∨ den ≠ 0) :
    sqrtRatio W M num den dinv = sqrtMod W M (num * dinv % M) := by
  simp [sqrtRatio, sqrtMod, h]

theorem sqrtRatio_eq_none {W M num dinv : ℕ} (h : num ≠ 0) : sqrtRatio W M num 0 dinv = none := by
  simp [sqrtRatio, h]

/-- Settles O49: with `dinv` known, SQRTR is SQRT of `num * dinv`, but for `den = 0` with a nonzero `num`. -/
theorem sqrtrGivesTheRootOfTheRatio : Obligations.SqrtrGivesTheRootOfTheRatio := by
  intro w s hf
  refine ⟨hasFields (.sqrtr w), faultsInOrder hf (by simp) (by simp), fun hr num den hM4 hA hB hn hd => ?_⟩
  have hc := ready_configOk hr
  have zero (hden : den.toNat = 0) : ratioInverse s den.toNat = (0, s) := hden ▸ ratioInverse_zero s
  refine ⟨fun hden hnum => ?_, fun hden hnum => ?_, fun dinv x r hdM hone hx hpow => ?_⟩
  · have hroot : 0 = (num.toNat * 0 % s.cfg.M) ^ ((s.cfg.M + 1) / 4) % s.cfg.M := by
      have hexp : (s.cfg.M + 1) / 4 ≠ 0 := by omega
      simp [hexp]
    rw [exec_sqrtr hr hM4 hA hB hn hd (zero hden), sqrtRatio_eq_sqrtMod (.inl hnum),
      optional_sqrtMod_of_root hc hroot (by simp)]
  · rw [exec_sqrtr hr hM4 hA hB hn hd (zero hden), hden, sqrtRatio_eq_none hnum, optional_none_eq_absent]
  · have hden : den.toNat ≠ 0 := by intro h; simp [h] at hone
    rw [exec_sqrtr hr hM4 hA hB hn hd (ratioInverse_of_inverse hc hdM hone), sqrtRatio_eq_sqrtMod (.inr hden), ← hx]
    exact ⟨fun h => by rw [optional_sqrtMod_of_root hc hpow h],
      fun h => by rw [optional_sqrtMod_of_not_root hc hpow h]⟩

end Sys2Proof.Proofs.InvSqrt
end

section
/-! PROOF. ENC, ENC.ENV, DEC, DEC.ENV and ISODD (43_codec.md). -/

namespace Sys2Proof.Proofs.Codec

open Sys2Proof Sys2Proof.Machine Sys2Proof.Proofs.CommandResults

/-! ## Lengths -/

theorem lengthOk_bounds {c : Config} {n : ℕ} (h : lengthOk c n = true) : c.NB ≤ n ∧ n ≤ 64 := by
  simpa [lengthOk] using h

theorem checkLength_ok {c : Config} {n : ℕ} (h : lengthOk c n = true) : checkLength c n = .ok () := by
  simp [checkLength, h]

/-- The internal width holds every field element (43_codec.md R180). -/
theorem element_lt_pow_NB {c : Config} {a : ℕ} (hc : configOk c = true) (ha : a < c.M) : a < 256 ^ c.NB := by
  obtain ⟨-, hM, -⟩ := configOk_bounds hc
  obtain ⟨hW, -, -⟩ := configOk_NB hc
  calc a
    _ < 2 ^ c.W := ha.trans hM
    _ = 256 ^ c.NB := by rw [hW, pow_mul]; rfl

/-! ## The encoded sequence -/

/-- A value of `nb` bytes has only zeros to the left of its last `nb` bytes (43_codec.md R182). -/
theorem padding_byte_eq_zero {a nb n k : ℕ} (ha : a < 256 ^ nb) (hk : k < n - nb) :
    BitVec.ofNat 8 (a >>> (8 * (n - 1 - k))) = 0 := by
  have hle : 256 ^ nb ≤ 256 ^ (n - 1 - k) := Nat.pow_le_pow_right (by decide) (by omega)
  have hpow : 2 ^ (8 * (n - 1 - k)) = 256 ^ (n - 1 - k) := pow_mul 2 8 _
  rw [Nat.shiftRight_eq_div_pow, hpow, Nat.div_eq_of_lt (ha.trans_le hle)]
  rfl

/-- An encoding's own cells hold its bytes. -/
theorem read_encoded_of_lt (s : State) {n k : ℕ} (a : ℕ) (hk : k < n) :
    Memory.read (s.encoded n a).BUF k = some (BitVec.ofNat 8 (a >>> (8 * (n - 1 - k)))) := by
  rw [State.encoded_BUF, Memory.read_writeFrom, beBytes_length, if_pos (by omega), Nat.sub_zero,
    beBytes_getElem? a hk]

/-- An encoding leaves the cells above it as they are. -/
theorem read_encoded_of_le (s : State) {n k : ℕ} (a : ℕ) (hk : n ≤ k) :
    Memory.read (s.encoded n a).BUF k = Memory.read s.BUF k := by
  rw [State.encoded_BUF, Memory.read_writeFrom, beBytes_length, if_neg (by omega)]

/-- An encoding is a byte operand of its own length. -/
theorem byteOperand_encoded (s : State) {n : ℕ} (a : ℕ) (hn : n < 256) :
    byteOperand (s.encoded n a) n = .ok (beBytes n a) := by
  refine byteOperand_eq_ok.2 ⟨⟨_, rfl, Nat.mod_eq_of_lt hn⟩, beBytes_length n a, fun k hk => ?_⟩
  rw [beBytes_length] at hk
  rw [read_encoded_of_lt s a hk, beBytes_getElem? a hk]

/-- An encoding is no byte operand of another length. -/
theorem byteFailure_encoded (s : State) {m n : ℕ} (a : ℕ) (hn : n < 256) (hmn : m ≠ n) :
    byteFailure m (s.encoded n a) = some .lengthMismatch := by
  have hlen : (s.encoded n a).BLEN.map BitVec.toNat = some n := congrArg some (Nat.mod_eq_of_lt hn)
  rw [byteFailure, hlen, if_neg (by simp), if_pos (by simpa using hmn.symm)]

/-! ## ENC and ENC.ENV -/

theorem exec_enc {w : Width} {s : State} {a : BitVec 128} (hr : s.Ready (.enc w)) (hA : s.A = some a)
    (ha : a.toNat < s.cfg.M) : exec (.enc w) s = .next (s.encoded s.cfg.NB a.toNat) := by
  have operand : fieldOperand s = .ok a.toNat := fieldOperand_eq_ok.2 ⟨⟨a, hA, rfl⟩, ha⟩
  rw [exec, execEnc, command_ready hr, operand]
  rfl

/-- Settles O51: the cells of an encoding of `NB` bytes. -/
theorem encWritesTheBytes : Obligations.EncWritesTheBytes := fun w s hf =>
  ⟨hasFields (.enc w), faultsInOrder hf (by simp) (by simp), fun hr a hA ha =>
    ⟨_, exec_enc hr hA ha, fun _ => read_encoded_of_lt s a.toNat, fun _ => read_encoded_of_le s a.toNat⟩⟩

theorem exec_encEnv {w : Width} {s : State} {a : BitVec 128} (hlen : lengthOk s.cfg s.cfg.ENV_BYTES = true)
    (hr : s.Ready (.encEnv w)) (hA : s.A = some a) (ha : a.toNat < s.cfg.M) :
    exec (.encEnv w) s = .next (s.encoded s.cfg.ENV_BYTES a.toNat) := by
  have operand : fieldOperand s = .ok a.toNat := fieldOperand_eq_ok.2 ⟨⟨a, hA, rfl⟩, ha⟩
  rw [exec, execEncEnv, command_ready hr, checkLength_ok hlen, operand]
  rfl

/-- Settles O52: the cells of an encoding of `ENV_BYTES` bytes; a field element leaves its padding zero. -/
theorem encEnvWritesThePaddedBytes : Obligations.EncEnvWritesThePaddedBytes := by
  intro w s hf hlen
  refine ⟨hasFields (.encEnv w), faultsInOrder hf (by simp) (fun _ => hlen), fun hr a hA ha => ?_⟩
  refine ⟨_, exec_encEnv hlen hr hA ha, fun _ => read_encoded_of_lt s a.toNat, fun k hk => ?_,
    fun _ => read_encoded_of_le s a.toNat⟩
  have hbyte := padding_byte_eq_zero (element_lt_pow_NB (ready_configOk hr) ha) hk
  exact (read_encoded_of_lt s a.toNat (by omega)).trans (congrArg some hbyte)

/-! ## DEC and DEC.ENV -/

/-- A range-checked value below `M` is presented. -/
theorem optional_eq_present {s : State} {v : ℕ} (hc : configOk s.cfg = true) (hv : v < s.cfg.M) :
    s.optional (some v) = s.present v :=
  InvSqrt.optional_some_eq_present (hv.trans (configOk_bounds hc).2.1)

theorem exec_dec {w : Width} {s : State} {bs : List Byte} (hr : s.Ready (.dec w))
    (hop : byteOperand s s.cfg.NB = .ok bs) :
    exec (.dec w) s = .next (s.optional (decodeValue s.cfg bs)) := by
  rw [exec, execDec, command_ready hr, hop]
  rfl

theorem exec_dec_present {w : Width} {s : State} {bs : List Byte} (hr : s.Ready (.dec w))
    (hop : byteOperand s s.cfg.NB = .ok bs) (hx : beValue bs < s.cfg.M) :
    exec (.dec w) s = .next (s.present (beValue bs)) := by
  have value : decodeValue s.cfg bs = some (beValue bs) := if_pos hx
  rw [exec_dec hr hop, value, optional_eq_present (ready_configOk hr) hx]

theorem exec_dec_absent {w : Width} {s : State} {bs : List Byte} (hr : s.Ready (.dec w))
    (hop : byteOperand s s.cfg.NB = .ok bs) (hx : s.cfg.M ≤ beValue bs) :
    exec (.dec w) s = .next s.absent := by
  have value : decodeValue s.cfg bs = none := if_neg hx.not_gt
  rw [exec_dec hr hop, value, InvSqrt.optional_none_eq_absent]

/-- Settles O53: the range check of the operand's value decides which outcome it has. -/
theorem decGivesTheValueOrNone : Obligations.DecGivesTheValueOrNone := by
  intro w s hf
  refine ⟨hasFields (.dec w), faultsInOrder hf (by simp) (by simp), fun hr n bs hn hnl hbs hold => ?_⟩
  have operand : byteOperand s s.cfg.NB = .ok bs := byteOperand_eq_ok.2 ⟨⟨n, hn, hnl⟩, hbs, hold⟩
  exact ⟨exec_dec_present hr operand, exec_dec_absent hr operand⟩

/-- The first `m` bytes of a sequence are zero, as the padding test reads them and cell by cell. -/
theorem take_all_eq_zero_iff {bs : List Byte} {m : ℕ} (hm : m ≤ bs.length) :
    (bs.take m).all (fun b => b == 0) = true ↔ ∀ k < m, bs[k]? = some 0 := by
  simp only [List.all_eq_true, beq_iff_eq, List.mem_take_iff_getElem, Nat.min_eq_left hm]
  constructor
  · intro h k hk
    exact List.getElem?_eq_some_iff.2 ⟨hk.trans_le hm, h _ ⟨k, hk, rfl⟩⟩
  · rintro h _ ⟨k, hk, rfl⟩
    exact (List.getElem?_eq_some_iff.1 (h k hk)).2

/-- DEC.ENV's two tests (43_codec.md R184). -/
abbrev EnvelopeOk (c : Config) (bs : List Byte) : Prop :=
  (∀ k < c.ENV_BYTES - c.NB, bs[k]? = some 0) ∧ beValue bs < c.M

theorem decodeEnvelope_eq {c : Config} {bs : List Byte} (hbs : bs.length = c.ENV_BYTES) :
    decodeEnvelope c bs = if EnvelopeOk c bs then some (beValue bs) else none := by
  have hpad := take_all_eq_zero_iff (bs := bs) (m := c.ENV_BYTES - c.NB) (by omega)
  simp only [decodeEnvelope, Bool.and_eq_true, decide_eq_true_eq, hpad]

theorem exec_decEnv {w : Width} {s : State} {bs : List Byte} (hlen : lengthOk s.cfg s.cfg.ENV_BYTES = true)
    (hr : s.Ready (.decEnv w)) (hop : byteOperand s s.cfg.ENV_BYTES = .ok bs) :
    exec (.decEnv w) s = .next (s.optional (decodeEnvelope s.cfg bs)) := by
  rw [exec, execDecEnv, command_ready hr, checkLength_ok hlen, hop]
  rfl

theorem exec_decEnv_present {w : Width} {s : State} {bs : List Byte} (hlen : lengthOk s.cfg s.cfg.ENV_BYTES = true)
    (hr : s.Ready (.decEnv w)) (hop : byteOperand s s.cfg.ENV_BYTES = .ok bs) (hok : EnvelopeOk s.cfg bs) :
    exec (.decEnv w) s = .next (s.present (beValue bs)) := by
  obtain ⟨-, hbs, -⟩ := byteOperand_eq_ok.1 hop
  rw [exec_decEnv hlen hr hop, decodeEnvelope_eq hbs, if_pos hok, optional_eq_present (ready_configOk hr) hok.2]

theorem exec_decEnv_absent {w : Width} {s : State} {bs : List Byte} (hlen : lengthOk s.cfg s.cfg.ENV_BYTES = true)
    (hr : s.Ready (.decEnv w)) (hop : byteOperand s s.cfg.ENV_BYTES = .ok bs) (hok : ¬ EnvelopeOk s.cfg bs) :
    exec (.decEnv w) s = .next s.absent := by
  obtain ⟨-, hbs, -⟩ := byteOperand_eq_ok.1 hop
  rw [exec_decEnv hlen hr hop, decodeEnvelope_eq hbs, if_neg hok, InvSqrt.optional_none_eq_absent]

/-- Settles O54: the padding and range tests of the operand decide which outcome it has. -/
theorem decEnvGivesTheValueOrNone : Obligations.DecEnvGivesTheValueOrNone := by
  intro w s hf hlen
  refine ⟨hasFields (.decEnv w), faultsInOrder hf (by simp) (fun _ => hlen), fun hr n bs hn hnl hbs hold => ?_⟩
  have operand : byteOperand s s.cfg.ENV_BYTES = .ok bs := byteOperand_eq_ok.2 ⟨⟨n, hn, hnl⟩, hbs, hold⟩
  exact ⟨exec_decEnv_present hlen hr operand, exec_decEnv_absent hlen hr operand⟩

/-! ## ISODD -/

/-- Settles O56: a parity is below `M`, which is at least 2. -/
theorem isoddGivesTheParity : Obligations.IsoddGivesTheParity := by
  intro w s hf
  refine ⟨hasFields (.isodd w), faultsInOrder hf (by simp) (by simp), fun hr a hA ha => ?_⟩
  have hM : 2 ≤ s.cfg.M := (configOk_bounds (ready_configOk hr)).1
  exact unaryCommand_present hr hA ha rfl ((Nat.mod_lt _ Nat.two_pos).trans_le hM)

/-! ## Round trips -/

/-- A command that leaves an unfaulted state has completed. -/
theorem command_completed {i : Instr} {s t : State} {body : Except Stop State} (h : command i s body = .next t)
    (ht : t.faulted = false) : s.Ready i ∧ body = .ok t := by
  obtain ⟨hs, rfl⟩ | ⟨-, c, rfl⟩ | hdone := command_cases h
  · simp [hs] at ht
  · simp at ht
  · exact hdone

/-- A body that encodes the field operand encodes a field element in `A`. -/
theorem encoded_of_fieldOperand {s t : State} {n : ℕ}
    (h : (fieldOperand s).map (fun a => s.encoded n a) = .ok t) :
    ∃ a, s.A = some a ∧ a.toNat < s.cfg.M ∧ t = s.encoded n a.toNat := by
  obtain ⟨x, hx, rfl⟩ := map_eq_ok h
  obtain ⟨⟨a, hA, rfl⟩, ha⟩ := fieldOperand_eq_ok.1 hx
  exact ⟨a, hA, ha, rfl⟩

theorem exec_enc_completed {w : Width} {s t : State} (h : exec (.enc w) s = .next t) (ht : t.faulted = false) :
    s.Ready (.enc w) ∧ ∃ a, s.A = some a ∧ a.toNat < s.cfg.M ∧ t = s.encoded s.cfg.NB a.toNat := by
  obtain ⟨hr, hbody⟩ := command_completed h ht
  exact ⟨hr, encoded_of_fieldOperand hbody⟩

theorem exec_encEnv_completed {w : Width} {s t : State} (h : exec (.encEnv w) s = .next t) (ht : t.faulted = false) :
    s.Ready (.encEnv w) ∧ lengthOk s.cfg s.cfg.ENV_BYTES = true ∧
      ∃ a, s.A = some a ∧ a.toNat < s.cfg.M ∧ t = s.encoded s.cfg.ENV_BYTES a.toNat := by
  obtain ⟨hr, hbody⟩ := command_completed h ht
  obtain ⟨_, hlen, hbody⟩ := bind_eq_ok hbody
  exact ⟨hr, checkLength_eq_ok hlen, encoded_of_fieldOperand hbody⟩

/-- A state left by an encode is as ready for a command of the same width as the one it was run in. -/
theorem ready_encoded {i j : Instr} {s : State} (n a : ℕ) (hr : s.Ready i) (hw : i.width = j.width) :
    (s.encoded n a).Ready j := by
  obtain ⟨hf, hc, hW⟩ := hr
  exact ⟨hf, hc, (congrArg Width.bits hw).symm.trans hW⟩

/-- DEC gives back what ENC wrote. -/
theorem exec_dec_encoded {w : Width} {s : State} {a : ℕ} (hr : s.Ready (.enc w)) (ha : a < s.cfg.M) :
    exec (.dec w) (s.encoded s.cfg.NB a) = .next ((s.encoded s.cfg.NB a).present a) := by
  have hc := ready_configOk hr
  have hn : s.cfg.NB < 256 := (NB_le_of_configOk hc).trans_lt (by decide)
  have hvalue : beValue (beBytes s.cfg.NB a) = a := ByteSequences.beValue_beBytes_of_lt (element_lt_pow_NB hc ha)
  have run := exec_dec_present (ready_encoded _ _ hr rfl) (byteOperand_encoded s a hn) (hvalue.trans_lt ha)
  rwa [hvalue] at run

/-- DEC.ENV gives back what ENC.ENV wrote: the padding is zero. -/
theorem exec_decEnv_encoded {w : Width} {s : State} {a : ℕ} (hlen : lengthOk s.cfg s.cfg.ENV_BYTES = true)
    (hr : s.Ready (.encEnv w)) (ha : a < s.cfg.M) :
    exec (.decEnv w) (s.encoded s.cfg.ENV_BYTES a) = .next ((s.encoded s.cfg.ENV_BYTES a).present a) := by
  obtain ⟨hle, h64⟩ := lengthOk_bounds hlen
  have haNB : a < 256 ^ s.cfg.NB := element_lt_pow_NB (ready_configOk hr) ha
  have haENV : a < 256 ^ s.cfg.ENV_BYTES := haNB.trans_le (Nat.pow_le_pow_right (by decide) hle)
  have hvalue : beValue (beBytes s.cfg.ENV_BYTES a) = a := ByteSequences.beValue_beBytes_of_lt haENV
  have hpad (k : ℕ) (hk : k < s.cfg.ENV_BYTES - s.cfg.NB) : (beBytes s.cfg.ENV_BYTES a)[k]? = some 0 := by
    rw [beBytes_getElem? a (by omega), padding_byte_eq_zero haNB hk]
  have run := exec_decEnv_present (s := s.encoded s.cfg.ENV_BYTES a) hlen (ready_encoded _ _ hr rfl)
    (byteOperand_encoded s a (h64.trans_lt (by decide))) ⟨hpad, hvalue.trans_lt ha⟩
  rwa [hvalue] at run

/-- Settles O57: an encode that completed left an encoding of `A`, an operand of its own length and of no other. -/
theorem encodingRoundTrips : Obligations.EncodingRoundTrips := by
  intro w s t ht
  refine ⟨fun h => ?_, fun h => ?_⟩
  · obtain ⟨hr, a, hA, ha, rfl⟩ := exec_enc_completed h ht
    have hNB := NB_le_of_configOk (ready_configOk hr)
    refine ⟨rfl, ⟨a, hA, exec_dec_encoded hr ha⟩, fun hlen hne => ?_⟩
    exact exec_raises (ready_encoded _ _ hr rfl) (by simp) (fun _ => hlen) (byteFailure_encoded s _ (by omega) hne)
  · obtain ⟨hr, hlen, a, hA, ha, rfl⟩ := exec_encEnv_completed h ht
    obtain ⟨-, h64⟩ := lengthOk_bounds hlen
    refine ⟨rfl, ⟨a, hA, exec_decEnv_encoded hlen hr ha⟩, fun hne => ?_⟩
    exact exec_raises (ready_encoded _ _ hr rfl) (by simp) (by simp) (byteFailure_encoded s _ (by omega) hne.symm)

end Sys2Proof.Proofs.Codec
end

section
/-! PROOF. The fault state: how an issued word enters it, what it refuses, and that only reset leaves it
(60_exceptions.md R205, R206, R207). -/

namespace Sys2Proof.Proofs.FaultState

open Sys2Proof Sys2Proof.Machine Sys2Proof.Proofs.WordFields Sys2Proof.Proofs.Configuration

/-! ## What a completed command leaves of the fault registers -/

theorem completes_STATUS {i : Instr} {s t : State} (h : Completes i s t) : t.STATUS = s.STATUS := by
  cases h <;> rfl

theorem completes_FCMD {i : Instr} {s t : State} (h : Completes i s t) : t.FCMD = s.FCMD := by
  cases h <;> rfl

theorem completes_faulted {i : Instr} {s t : State} (h : Completes i s t) : t.faulted = s.faulted := by
  rw [State.faulted, completes_STATUS h, State.faulted]

/-! ## Entering the fault state -/

/-- A word that leads into the fault state leaves a fault entry with that word, whether or not it decodes. -/
theorem issue_enters_fault {w : CmdWord} {s t : State} (hf : s.faulted = false) (ht : t.faulted = true)
    (h : issue w s = .next t) : ∃ c, t = s.raise c w := by
  obtain ⟨i, hd, hi⟩ | ⟨-, ⟨hs, -⟩ | ⟨-, hc⟩⟩ := issue_cases h
  · obtain ⟨hs, -⟩ | ⟨-, c, rfl⟩ | ⟨-, hdone⟩ := exec_cases hi
    · simp [hf] at hs
    · exact ⟨c, by rw [encode_of_decode hd]⟩
    · simp [completes_faulted hdone, hf] at ht
  · simp [hf] at hs
  · exact hc

/-- Settles O22: fault entry with the issued word, in the state with the issue taken off the host's list. -/
theorem faultEntryWritesOnlyStatusAndFcmd : Obligations.FaultEntryWritesOnlyStatusAndFcmd := by
  intro s t w rest hs hf hstep ht
  rw [step_issue hs] at hstep
  exact issue_enters_fault (s := { s with host := rest }) hf ht hstep

/-! ## In the fault state -/

theorem exec_faulted {i : Instr} {s : State} (hf : s.faulted = true) : exec i s = .next s := by
  cases i <;> exact command_faulted hf

theorem issue_faulted {w : CmdWord} {s : State} (hf : s.faulted = true) : issue w s = .next s := by
  cases hd : decode w with
  | ok i => simp only [issue, hd, exec_faulted hf]
  | error e => simp [issue, hd, issueIllegal, hf]

/-- Settles O23: neither a decoded nor a refused word does anything, and a host read goes on as everywhere. -/
theorem faultStatePerformsNoCommand : Obligations.FaultStatePerformsNoCommand :=
  ⟨fun _ _ => exec_faulted, fun _ _ _ hf hs => (step_issue hs).trans (issue_faulted hf),
    fun _ _ _ _ hs => step_hostEffect hs (by simp)⟩

/-! ## Leaving the fault state -/

/-- No host action but reset writes `STATUS` or `FCMD`. -/
theorem hostEffect_keeps_fault_registers {act : HostAction} (s : State) (h : ∀ lost, act ≠ .reset lost) :
    (hostEffect s act).STATUS = s.STATUS ∧ (hostEffect s act).FCMD = s.FCMD := by
  cases act with
  | reset lost => exact absurd rfl (h lost)
  | _ => exact ⟨rfl, rfl⟩

/-- A step of the fault state that is not a reset writes neither `STATUS` nor `FCMD`. -/
theorem step_faulted_keeps_fault_registers {s t : State} (hf : s.faulted = true) (h : step s = .next t)
    (hreset : ¬ ∃ lost rest, s.host = .reset lost :: rest) : t.STATUS = s.STATUS ∧ t.FCMD = s.FCMD := by
  obtain ⟨-, rfl⟩ | ⟨w, rest, -, hw⟩ | ⟨act, rest, hs, -, rfl⟩ := step_cases h
  · exact ⟨rfl, rfl⟩
  · cases (issue_faulted (s := { s with host := rest }) hf).symm.trans hw
    exact ⟨rfl, rfl⟩
  · exact hostEffect_keeps_fault_registers _ fun lost hl => hreset ⟨lost, rest, hl ▸ hs⟩

/-- Settles O24: reset writes a zero `STATUS`, and no other step of the fault state writes it. -/
theorem onlyResetLeavesTheFaultState : Obligations.OnlyResetLeavesTheFaultState := by
  intro s t hf hstep
  by_cases hreset : ∃ lost rest, s.host = .reset lost :: rest
  · obtain ⟨lost, rest, hs⟩ := hreset
    rw [step_reset hs] at hstep
    cases hstep
    exact .inr ⟨State.hostReset_faulted _, lost, rest, hs⟩
  · obtain ⟨hstatus, hfcmd⟩ := step_faulted_keeps_fault_registers hf hstep hreset
    exact .inl ⟨by rwa [State.faulted, hstatus], hstatus, hfcmd, hreset⟩

end Sys2Proof.Proofs.FaultState
end

section
/-! PROOF. The outcome of a command: which of the three it has (60_exceptions.md R200), and that the common checks
decide between the fault and the others (R202). -/

namespace Sys2Proof.Proofs.Outcomes

open Sys2Proof Sys2Proof.Machine Sys2Proof.Proofs.FieldOperands Sys2Proof.Proofs.Configuration
  Sys2Proof.Proofs.LegalWords Sys2Proof.Proofs.WordFields Sys2Proof.Proofs.Codec Sys2Proof.Proofs.FaultState

/-! ## The three outcomes -/

theorem encodeCommand_of_rootCommand {i : Instr} (h : rootCommand i = true) : encodeCommand i = false := by
  cases i with
  | sqrt w | sqrtr w => rfl
  | _ => cases h

theorem softCommand_of_rootCommand {i : Instr} (h : rootCommand i = true) : softCommand i = true := by
  cases i with
  | sqrt w | sqrtr w => rfl
  | _ => cases h

/-- Settles O25: what a command can leave is a fault entry or one of the forms of a completed command. SQRTR's inner
INV may use up one free value more, so the value in `R` is the first or the second one drawn. -/
theorem everyCommandHasOneOfThreeOutcomes : Obligations.EveryCommandHasOneOfThreeOutcomes := by
  intro i s t hf h
  obtain ⟨hs, -⟩ | ⟨-, c, rfl⟩ | ⟨-, hdone⟩ := exec_cases h
  · simp [hf] at hs
  · exact .inr (.inr ⟨State.raise_faulted .., rfl⟩)
  cases hdone with
  | result r he => exact .inl ⟨rfl, hf, fun _ => ⟨nofun, rfl⟩, by simp [he]⟩
  | drawnResult r hroot =>
    exact .inl ⟨rfl, hf, fun _ => ⟨nofun, rfl⟩, by simp [encodeCommand_of_rootCommand hroot]⟩
  | encoded n a he => exact .inl ⟨rfl, hf, by simp [he], fun _ => ⟨nofun, rfl⟩⟩
  | soft hsoft => exact .inr (.inl ⟨rfl, hf, hsoft, rfl, s.draws, le_rfl, by simp, rfl⟩)
  | drawnSoft hroot =>
    exact .inr (.inl ⟨rfl, hf, softCommand_of_rootCommand hroot, rfl, s.draws + 1, by simp, by simp, rfl⟩)

/-! ## No failing check -/

theorem operands_of_fieldFailure {i : Instr} {s : State} (h : fieldFailure i s = none) :
    ∃ a b, (s.A = some a ∧ a.toNat < s.cfg.M) ∧ (binaryField i = true → s.B = some b ∧ b.toNat < s.cfg.M) := by
  unfold fieldFailure at h
  split_ifs at h with hA hB ha hb
  obtain ⟨a, hA⟩ := Option.ne_none_iff_exists'.1 hA
  refine ⟨a, s.B.getD 0, ⟨hA, by simpa [hA, atLeast] using ha⟩, fun hbin => ?_⟩
  obtain ⟨b, hB⟩ := Option.ne_none_iff_exists'.1 fun hn => hB ⟨hbin, hn⟩
  simpa [hbin, hB, atLeast] using hb

theorem byteOperand_of_byteFailure {n : ℕ} {s : State} (h : byteFailure n s = none) :
    ∃ bs, byteOperand s n = .ok bs := by
  unfold byteFailure at h
  split_ifs at h with hL hlen hcells
  obtain ⟨l, hL⟩ := Option.ne_none_iff_exists'.1 hL
  have hl : l.toNat = n := by simpa [hL] using hlen
  have hread : Memory.readFrom s.BUF 0 n ≠ none := fun hn =>
    hcells (by simpa using Memory.readFrom_eq_none.1 hn)
  obtain ⟨bs, hbs⟩ := Option.ne_none_iff_exists'.1 hread
  exact ⟨bs, by simp [byteOperand, hL, written, Except.bind, hl, hbs]⟩

theorem remrOperands_of_remrFailure {s : State} (h : remrFailure s = none) : ∃ p, remrOperands s = .ok p := by
  unfold remrFailure at h
  split_ifs at h with hA hB hrange hzero hwide
  obtain ⟨x, hA⟩ := Option.ne_none_iff_exists'.1 hA
  obtain ⟨m, hB⟩ := Option.ne_none_iff_exists'.1 hB
  have hm : 0 < m.toNat := Nat.pos_of_ne_zero fun h0 => hzero (by rw [hB, BitVec.eq_of_toNat_eq (y := 0) h0])
  simp only [hA, hB, atLeast, quotientTooWide, decide_eq_true_eq, not_le] at hrange hwide
  exact ⟨(x.toNat, m.toNat), remrOperands_eq_ok.2 ⟨⟨x, hA, rfl⟩, ⟨m, hB, rfl⟩, hm, hrange, hwide⟩⟩

/-- A ready byte command or REMR none of whose checks fails keeps `STATUS`; the counterpart of
`exec_field_completes`. -/
theorem exec_not_field_completes {i : Instr} {s : State} (hr : s.Ready i) (hlen : LegalLengths s.cfg)
    (hf : fieldCommand i = false) (h : operandFailure i s = none) : ∃ t, exec i s = .next t ∧ t.STATUS = s.STATUS := by
  obtain ⟨henv, hred⟩ := hlen
  cases i
  case redw w | rednz w =>
    obtain ⟨bs, hbs⟩ := byteOperand_of_byteFailure (n := s.cfg.RED_BYTES) h
    exact command_completes hr (by rw [checkLength_ok hred, hbs]; rfl) (State.result_STATUS ..)
  case dec w =>
    obtain ⟨bs, hbs⟩ := byteOperand_of_byteFailure (n := s.cfg.NB) h
    exact command_completes hr (by rw [hbs]; rfl) (optional_STATUS ..)
  case decEnv w =>
    obtain ⟨bs, hbs⟩ := byteOperand_of_byteFailure (n := s.cfg.ENV_BYTES) h
    exact command_completes hr (by rw [checkLength_ok henv, hbs]; rfl) (optional_STATUS ..)
  case remr =>
    obtain ⟨p, hp⟩ := remrOperands_of_remrFailure h
    exact command_completes hr (by rw [hp]; rfl) (State.result_STATUS ..)
  all_goals cases hf

/-- A command that ends with the old `STATUS` outside the fault state has completed. -/
theorem completes_of_STATUS {i : Instr} {s t : State} (hf : s.faulted = false) (h : exec i s = .next t)
    (ht : t.STATUS = s.STATUS) : Completes i s t := by
  obtain ⟨hs, -⟩ | ⟨-, c, rfl⟩ | ⟨-, hdone⟩ := exec_cases h
  · simp [hf] at hs
  · have hs : s.faulted = true := by rw [State.faulted, ← ht]; exact statusOf_faulted c
    simp [hf] at hs
  · exact hdone

/-- A ready command none of whose checks fails completes (60_exceptions.md R202); the byte lengths are legal (log
entry 9). -/
theorem exec_completes {i : Instr} {s : State} (hr : s.Ready i) (hlen : LegalLengths s.cfg)
    (h : operandFailure i s = none) : ∃ t, exec i s = .next t ∧ Completes i s t := by
  suffices ends : ∃ t, exec i s = .next t ∧ t.STATUS = s.STATUS by
    obtain ⟨t, ht, hstatus⟩ := ends
    exact ⟨t, ht, completes_of_STATUS hr.1 ht hstatus⟩
  cases hf : fieldCommand i with
  | false => exact exec_not_field_completes hr hlen hf h
  | true =>
    have hroot : rootCommand i = true → s.cfg.M % 4 = 3 := fun hi => by
      by_contra hM
      simp [operandFailure, hi, hM] at h
    rw [operandFailure_of_fieldCommand hf hroot] at h
    obtain ⟨a, b, ⟨hA, ha⟩, hb⟩ := operands_of_fieldFailure h
    exact exec_field_completes hf hr hlen.1 hroot hA ha (fun hbin => (hb hbin).1) fun hbin => (hb hbin).2

theorem completes_V_ne_none {i : Instr} {s t : State} (h : Completes i s t) : t.V ≠ none := by
  cases h <;> nofun

/-- Settles O21: the checks on the word are those of every issue, and a decoded command raises its first failing
check or completes. -/
theorem commonChecksFaultInOrder : Obligations.CommonChecksFaultInOrder := by
  intro s w rest hs hf hlen
  have hstep : step s = issue w { s with host := rest } := step_issue hs
  refine ⟨fun hc => hstep.trans (issue_configInvalid hf hc), fun hc hw => hstep.trans (issue_illegal hf hc hw),
    fun i hd hr => ?_⟩
  have hexec : step s = exec i { s with host := rest } := by rw [hstep, issue, hd]
  have hr' : State.Ready { s with host := rest } i := hr
  refine ⟨fun c hfail => ?_, fun hpass => ?_⟩
  · obtain ⟨henv, hred⟩ := hlen
    rw [hexec, ← encode_of_decode hd]
    exact exec_raises hr' (fun _ => hred) (fun _ => henv) hfail
  · obtain ⟨t, ht, hdone⟩ := exec_completes hr' hlen hpass
    exact ⟨t, ht, hexec.trans ht, (completes_STATUS hdone :), (completes_FCMD hdone :), completes_V_ne_none hdone⟩

end Sys2Proof.Proofs.Outcomes
end

section
/-! PROOF. Reset as one step of the machine (70_reset_and_hazards.md R230). -/

namespace Sys2Proof.Proofs.Reset

open Sys2Proof Sys2Proof.Machine Sys2Proof.Proofs.Configuration

/-- Settles O9: the step of a reset is `State.hostReset` in or out of the fault state, and the word issued with it is
never looked at. -/
theorem hostResetTakesTheResetState : Obligations.HostResetTakesTheResetState := by
  intro s lost rest hs
  have heffect : State.hostReset { s with host := rest } =
      { State.resetOf s.cfg with host := rest, readBack := s.readBack, draws := s.draws } := rfl
  rw [step_reset hs, heffect]

end Sys2Proof.Proofs.Reset
end

section
/-! PROOF. The machine's invariant: it holds after reset and every step, of a command or of the host, keeps it. -/

namespace Sys2Proof.Proofs.Invariant

open Sys2Proof Sys2Proof.Machine

/-- Settles O2: everything is unwritten and `STATUS` is zero. -/
theorem resetMeetsTheInvariant : Obligations.ResetMeetsTheInvariant := fun _ =>
  ⟨Memory.nil_wf, nofun, fun h => absurd rfl h, .inl ⟨rfl, rfl⟩⟩

/-! ## What a command leaves -/

/-- A `W`-bit value stays one in the 64 bits `R` is held in. -/
theorem toNat_ofNat_lt {W v : ℕ} (hv : v < 2 ^ W) : (BitVec.ofNat 64 v).toNat < 2 ^ W := by
  rw [BitVec.toNat_ofNat]
  exact (Nat.mod_le _ _).trans_lt hv

/-- A command that writes `R` writes `V` too. -/
theorem inv_writeResult {s : State} (hs : s.Inv) {v : ℕ} (hv : v < 2 ^ s.cfg.W) (valid : Bool) (draws : ℕ) :
    State.Inv { s with R := some (BitVec.ofNat 64 v), V := some valid, draws := draws } := by
  refine ⟨hs.buf, fun r hr => ?_, fun _ => nofun, hs.status⟩
  cases hr
  exact toNat_ofNat_lt hv

theorem inv_result {s : State} (hs : s.Inv) (r : ℕ) : (s.result r).Inv :=
  inv_writeResult hs (Nat.mod_lt _ (Nat.two_pow_pos _)) true s.draws

/-- The free value of a soft outcome is cut to `W` bits. -/
theorem inv_soft {s : State} (hs : s.Inv) : s.soft.Inv :=
  inv_writeResult hs (Nat.mod_lt _ (Nat.two_pow_pos _)) false (s.draws + 1)

theorem inv_encoded {s : State} (hs : s.Inv) {n : ℕ} (a : ℕ) (hn : n ≤ 64) : (s.encoded n a).Inv where
  buf := Memory.writeFrom_wf hs.buf (by rwa [beBytes_length, Nat.zero_add])
  width := hs.width
  valid := fun _ => nofun
  status := hs.status

theorem inv_raise {s : State} (hs : s.Inv) (c : Cause) (w : CmdWord) : (s.raise c w).Inv :=
  ⟨hs.buf, hs.width, hs.valid, .inr ⟨c, rfl⟩⟩

/-- The host's list, what it last read and the free stream's index are no part of the invariant. -/
theorem inv_of_same_registers {s t : State} (hs : s.Inv) (hcfg : t.cfg = s.cfg) (hR : t.R = s.R) (hV : t.V = s.V)
    (hBUF : t.BUF = s.BUF) (hSTATUS : t.STATUS = s.STATUS) (hFCMD : t.FCMD = s.FCMD) : t.Inv where
  buf := hBUF ▸ hs.buf
  width := by rw [hR, hcfg]; exact hs.width
  valid := by rw [hR, hV]; exact hs.valid
  status := by rw [hSTATUS, hFCMD]; exact hs.status

theorem inv_completes {i : Instr} {s t : State} (hs : s.Inv) (h : Completes i s t) : t.Inv := by
  have drawn : State.Inv { s with draws := s.draws + 1 } := inv_of_same_registers hs rfl rfl rfl rfl rfl rfl
  cases h with
  | result r => exact inv_result hs r
  | soft => exact inv_soft hs
  | drawnResult r => exact inv_result drawn r
  | drawnSoft => exact inv_soft drawn
  | encoded n a _ hn => exact inv_encoded hs a hn

theorem inv_exec {i : Instr} {s t : State} (hs : s.Inv) (h : exec i s = .next t) : t.Inv := by
  obtain ⟨-, rfl⟩ | ⟨-, c, rfl⟩ | ⟨-, hdone⟩ := exec_cases h
  · exact hs
  · exact inv_raise hs c _
  · exact inv_completes hs hdone

theorem inv_issue {w : CmdWord} {s t : State} (hs : s.Inv) (h : issue w s = .next t) : t.Inv := by
  obtain ⟨i, -, hi⟩ | ⟨-, ⟨-, rfl⟩ | ⟨-, c, rfl⟩⟩ := issue_cases h
  · exact inv_exec hs hi
  · exact hs
  · exact inv_raise hs c w

/-! ## What a host action leaves -/

theorem inv_hostReset (s : State) : s.hostReset.Inv :=
  inv_of_same_registers (resetMeetsTheInvariant s.cfg) rfl rfl rfl rfl rfl rfl

theorem inv_hostEffect {s : State} (hs : s.Inv) (act : HostAction) : (hostEffect s act).Inv := by
  cases act with
  | wrBuf i b => exact ⟨Memory.write_wf hs.buf i.isLt, hs.width, hs.valid, hs.status⟩
  | reset lost => exact inv_hostReset s
  | wrReadOnly r v | issue w => exact hs
  | wrA v | wrB v | wrBlen n | movA | movB | rd r => exact inv_of_same_registers hs rfl rfl rfl rfl rfl rfl

/-- Settles O3: a step is idle, issues a word or is a host action, and each of them keeps the invariant. -/
theorem everyStepKeepsTheInvariant : Obligations.EveryStepKeepsTheInvariant := by
  intro s t hs h
  have shortened (rest : List HostAction) : State.Inv { s with host := rest } :=
    inv_of_same_registers hs rfl rfl rfl rfl rfl rfl
  obtain ⟨-, rfl⟩ | ⟨w, rest, -, hw⟩ | ⟨act, rest, -, -, rfl⟩ := step_cases h
  · exact hs
  · exact inv_issue (shortened rest) hw
  · exact inv_hostEffect (shortened rest) act

/-! ## The status register in a state of the invariant -/

/-- Settles O10: `STATUS` is zero or the word of one of the eight causes. -/
theorem statusReadsFaultedAndCause : Obligations.StatusReadsFaultedAndCause := by
  have raised (s : State) (w : CmdWord) (c : Cause) : (s.raise c w).cause = c.code := statusOf_cause c
  refine ⟨fun s hs => ⟨_, rfl, ?_⟩, fun _ => rfl, fun s w => ⟨raised s w _, raised s w _, raised s w _, raised s w _,
    raised s w _, raised s w _, raised s w _, raised s w _⟩⟩
  rw [State.faulted, State.cause]
  obtain ⟨h0, -⟩ | ⟨c, hc⟩ := hs.status
  · rw [h0]
    decide
  · rw [hc]
    cases c <;> decide

/-! ## The canonical form of BUF -/

/-- In a canonical buffer the listed cells are the written ones. -/
theorem read_eq_some_iff_mem {m : Memory} (hm : m.Pairwise fun c d => c.1 < d.1) {k : ℕ} {b : Byte} :
    Memory.read m k = some b ↔ (k, b) ∈ m := by
  induction m with
  | nil => simp
  | cons c m ih =>
    obtain ⟨j, v⟩ := c
    obtain ⟨hhead, htail⟩ := List.pairwise_cons.1 hm
    rw [Memory.read, List.mem_cons, Prod.mk.injEq]
    split_ifs with hj
    · have unlisted : (k, b) ∉ m := fun hmem => (hhead _ hmem).ne hj
      simp [hj, unlisted, eq_comm]
    · simp [ih htail, Ne.symm hj]

/-- Settles O59: the buffers list the same cells, each once and in rising order. -/
theorem canonicalBuffersAreDeterminedByTheirCells : Obligations.CanonicalBuffersAreDeterminedByTheirCells := by
  rintro m m' ⟨hrise, hlow⟩ ⟨hrise', hlow'⟩ hread
  have listed (c : Host.Cell) : c ∈ m ↔ c ∈ m' := by
    obtain ⟨k, b⟩ := c
    by_cases hk : k < 64
    · rw [← read_eq_some_iff_mem hrise, ← read_eq_some_iff_mem hrise', hread k hk]
    · exact iff_of_false (fun h => hk (hlow _ h)) fun h => hk (hlow' _ h)
  have once {l : Memory} (h : l.Pairwise fun c d => c.1 < d.1) : l.Nodup := h.imp fun hlt heq => hlt.ne (by rw [heq])
  have perm : m.Perm m' := (List.perm_ext_iff_of_nodup (once hrise) (once hrise')).2 listed
  exact perm.eq_of_pairwise (fun c d _ _ hcd hdc => absurd (hcd.trans hdc) (lt_irrefl _)) hrise hrise'

end Sys2Proof.Proofs.Invariant
end

section
/-! PROOF. The decoder and the encoder on all words and commands (30_encoding.md R80 to R85), and the step of an issued
word. -/

namespace Sys2Proof.Proofs.CommandWords

open Sys2Proof Sys2Proof.Machine Sys2Proof.Proofs.WordFields Sys2Proof.Proofs.LegalWords

/-- Settles O17: a command's fields select it, and a word is the four fields its command is encoded with. -/
theorem decodeAndEncodeAgree : Obligations.DecodeAndEncodeAgree :=
  ⟨decode_encode, fun _ _ => encode_of_decode⟩

/-- Settles O20: each word is evaluated. -/
theorem sampleWordsDecode : Obligations.SampleWordsDecode :=
  ⟨rfl, rfl, rfl, rfl, rfl, rfl, rfl, rfl, rfl, rfl, rfl, rfl, rfl, rfl, rfl, rfl⟩

/-- Settles O4: the step of an issue is the performance of its decoded command. -/
theorem stepRunsTheDecodedCommand : Obligations.StepRunsTheDecodedCommand := by
  intro s w rest i hs hd
  rw [step_issue hs, issue, hd]

/-- Settles O5: with an empty list of host actions a step is idle. -/
theorem idleStepHoldsAllRegisters : Obligations.IdleStepHoldsAllRegisters := by
  intro s hs
  rw [step, stepAction, hs]

end Sys2Proof.Proofs.CommandWords
end

section
/-! PROOF. What the host reads, copies and writes as a sequence (10_state.md R24, R38; 30_encoding.md R90). -/

namespace Sys2Proof.Proofs.HostRegisters

open Sys2Proof Sys2Proof.Machine

/-! ## Reads -/

/-- Settles O7: each of the six reads is that of an optional register; `V` reads as 1 or 0. -/
theorem hostReadIsRefusedExactlyWhenUnwritten : Obligations.HostReadIsRefusedExactlyWhenUnwritten := by
  intro s
  refine ⟨?_, ?_, ?_, ?_, fun i => ?_, ?_⟩ <;> simp only [hostRead, readReadOnly]
  · cases s.A <;> rfl
  · cases s.B <;> rfl
  · cases s.R <;> rfl
  · cases s.V with
    | none => rfl
    | some v => cases v <;> rfl
  · cases Memory.read s.BUF i.val <;> rfl
  · cases s.BLEN <;> rfl

/-- Settles O60: a width other than 64 has no record. -/
theorem absentRecordReadsAreRefused : Obligations.AbsentRecordReadsAreRefused := by
  intro s hW
  have absent (k bound v : ℕ) : readRecord s.cfg k bound v = .refused := if_neg hW
  exact ⟨absent .., absent .., absent ..⟩

/-! ## Copies of R -/

/-- Settles O8: the copy's step is its effect, and that copies a written `R` only. -/
theorem moveCopiesTheResult : Obligations.MoveCopiesTheResult := by
  intro s rest
  have written {r : BitVec 64} (hR : s.R = some r) (old : Option (BitVec 128)) :
      copyOfR { s with host := rest } old = some (r.setWidth 128) := by simp only [copyOfR, hR]
  have unwritten (hR : s.R = none) (old : Option (BitVec 128)) :
      copyOfR { s with host := rest } old = old := by simp only [copyOfR, hR]
  refine ⟨fun r hR hs => ?_, fun r hR hs => ?_, fun hR hs => ?_⟩
  · rw [step_hostEffect hs (by simp), hostEffect, written hR]
  · rw [step_hostEffect hs (by simp), hostEffect, written hR]
  · obtain hs | hs := hs <;> rw [step_hostEffect hs (by simp), hostEffect, unwritten hR]

/-! ## WRBUF -/

theorem wrbufFrom_cons_of_lt {i : ℕ} (hi : i < 64) (len : BitVec 8) (b : Byte) (bs : List Byte) :
    wrbufFrom len i (b :: bs) = (wrbufFrom len (i + 1) bs).map (HostAction.wrBuf ⟨i, hi⟩ b :: ·) := dif_pos hi

theorem wrbufFrom_cons_of_le {i : ℕ} (hi : 64 ≤ i) (len : BitVec 8) (b : Byte) (bs : List Byte) :
    wrbufFrom len i (b :: bs) = none := dif_neg hi.not_gt

/-- The accesses of a sequence that fits write it from `BUF[i]` up and then `BLEN`, and issue no word. -/
theorem wrbufFrom_of_fits (len : BitVec 8) {bs : List Byte} {i : ℕ} (hfit : i + bs.length ≤ 64) :
    ∃ acts, wrbufFrom len i bs = some acts ∧ (∀ w, HostAction.issue w ∉ acts) ∧ ∀ s : State,
      acts.foldl hostEffect s = { s with BUF := Memory.writeFrom s.BUF i bs, BLEN := some len } := by
  induction bs generalizing i with
  | nil => exact ⟨[.wrBlen len], rfl, by simp, fun _ => rfl⟩
  | cons b bs ih =>
    rw [List.length_cons] at hfit
    obtain ⟨acts, hacts, hissue, heffect⟩ := ih (i := i + 1) (by omega)
    have hi : i < 64 := by omega
    refine ⟨.wrBuf ⟨i, hi⟩ b :: acts, ?_, by simpa using hissue, fun s => ?_⟩
    · rw [wrbufFrom_cons_of_lt hi, hacts, Option.map_some]
    · rw [List.foldl_cons, heffect]
      rfl

/-- A sequence that runs past `BUF[63]` has no accesses. -/
theorem wrbufFrom_of_too_long (len : BitVec 8) {bs : List Byte} {i : ℕ} (hi : i ≤ 64) (hlong : 64 < i + bs.length) :
    wrbufFrom len i bs = none := by
  induction bs generalizing i with
  | nil => rw [List.length_nil] at hlong; omega
  | cons b bs ih =>
    rw [List.length_cons] at hlong
    obtain hlt | rfl := Nat.lt_or_eq_of_le hi
    · rw [wrbufFrom_cons_of_lt hlt, ih (by omega) (by omega), Option.map_none]
    · exact wrbufFrom_cons_of_le le_rfl len b bs

/-- Settles O11: the cells are those of a sequence written from `BUF[0]`. -/
theorem wrbufWritesTheSequence : Obligations.WrbufWritesTheSequence := by
  refine fun bs => ⟨fun hfit => ?_, fun hlong => wrbufFrom_of_too_long _ (Nat.zero_le _) (by omega)⟩
  obtain ⟨acts, hacts, hissue, heffect⟩ := wrbufFrom_of_fits (BitVec.ofNat 8 bs.length) (bs := bs) (i := 0) (by omega)
  refine ⟨acts, hacts, hissue, fun s => ⟨_, heffect s, fun k hk => ?_, fun k hk => ?_⟩⟩
  · rw [Memory.read_writeFrom, if_pos (by omega), Nat.sub_zero]
  · rw [Memory.read_writeFrom, if_neg (by omega)]

end Sys2Proof.Proofs.HostRegisters
end

section
/-! PROOF. The published constants (10_state.md R25). -/

namespace Sys2Proof.Proofs.PublishedConstants

open Sys2Proof Sys2Proof.Machine

/-! ## Bit length and capacity -/

theorem numBits_and_capacity {s : State} (hM : 1 ≤ s.cfg.M) (hM255 : s.cfg.M < 2 ^ 255) :
    hostRead s (.ro .CONST_NUM_BITS) = .number (bitLength s.cfg.M) ∧
      hostRead s (.ro .CONST_CAPACITY) = .number (bitLength s.cfg.M - 1) := by
  have hbits : bitLength s.cfg.M ≤ 255 := bitLength_le_iff.2 hM255
  have hcap : constCapacity s.cfg = some (bitLength s.cfg.M - 1) := if_neg (by omega)
  constructor
  · rw [hostRead, readReadOnly, constNumBits, published_some (by omega)]
  · rw [hostRead, readReadOnly, hcap, published_some (by omega)]

/-! ## The two-inverse -/

theorem twoInv_of_odd {s : State} (hodd : s.cfg.M % 2 = 1) (hfit : (s.cfg.M + 1) / 2 < 2 ^ s.cfg.W) :
    hostRead s (.ro .CONST_TWO_INV) = .number ((s.cfg.M + 1) / 2) := by
  have hdef : constTwoInv s.cfg = some ((s.cfg.M + 1) / 2) := if_pos hodd
  rw [hostRead, readReadOnly, hdef, published_some hfit]

/-- Twice `(M + 1) / 2` is `M + 1`. -/
theorem two_mul_half_succ_mod {M : ℕ} (hodd : M % 2 = 1) (hM : 2 ≤ M) : 2 * ((M + 1) / 2) % M = 1 := by
  have hdouble : 2 * ((M + 1) / 2) = M + 1 := by omega
  rw [hdouble, Nat.add_mod_left, Nat.mod_eq_of_lt hM]

/-! ## The 2-adic valuation -/

/-- `S` is the exponent of 2 in `M - 1`. -/
theorem valuationS_spec {c : Config} (hM : 2 ≤ c.M) :
    2 ^ valuationS c ∣ c.M - 1 ∧ ¬ 2 ^ (valuationS c + 1) ∣ c.M - 1 :=
  valuation2_spec (by omega) ((Nat.sub_le _ _).trans_lt (lt_two_pow_bitLength c.M))

theorem two_pow_valuationS_lt {c : Config} (hM : 2 ≤ c.M) : 2 ^ valuationS c < c.M := by
  have hle : 2 ^ valuationS c ≤ c.M - 1 := Nat.le_of_dvd (by omega) (valuationS_spec hM).1
  omega

/-- For `M = 3 mod 4`, `M - 1` is twice an odd number. -/
theorem valuationS_eq_one {c : Config} (hM4 : c.M % 4 = 3) : valuationS c = 1 := by
  obtain ⟨hdvd, hndvd⟩ := valuationS_spec (c := c) (by omega)
  obtain h0 | h1 | h2 : valuationS c = 0 ∨ valuationS c = 1 ∨ 2 ≤ valuationS c := by omega
  · rw [h0] at hndvd
    omega
  · exact h1
  · have hfour : 2 ^ 2 ∣ c.M - 1 := (Nat.pow_dvd_pow 2 h2).trans hdvd
    omega

theorem read_S {s : State} (hM : 2 ≤ s.cfg.M) (hMW : s.cfg.M ≤ 2 ^ s.cfg.W) (hW : s.cfg.W < 256) :
    hostRead s (.ro .CONST_S) = .number (valuationS s.cfg) := by
  have hS : valuationS s.cfg < s.cfg.W :=
    (Nat.pow_lt_pow_iff_right Nat.one_lt_two).1 ((two_pow_valuationS_lt hM).trans_le hMW)
  have hdef : constS s.cfg = some (valuationS s.cfg) := if_pos hM
  rw [hostRead, readReadOnly, hdef, published_some (hS.trans hW)]

/-! ## The root of unity, its inverse and DELTA -/

/-- The root of unity as R25's formula gives it. -/
abbrev unityRoot (c : Config) : ℕ := c.GENERATOR ^ ((c.M - 1) / 2 ^ valuationS c) % c.M

theorem constRootOfUnity_eq {c : Config} (hM : 2 ≤ c.M) : constRootOfUnity c = some (unityRoot c) := by
  have hexp : (c.M - 1) / 2 ^ valuationS c < 2 ^ bitLength c.M :=
    ((Nat.div_le_self _ _).trans (Nat.sub_le _ _)).trans_lt (lt_two_pow_bitLength c.M)
  rw [constRootOfUnity, if_neg (by omega), powMod_eq hexp]

theorem read_rootOfUnity {s : State} (hM : 2 ≤ s.cfg.M) (hMW : s.cfg.M ≤ 2 ^ s.cfg.W) :
    hostRead s (.ro .CONST_ROOT_OF_UNITY) = .number (unityRoot s.cfg) := by
  have hlt : unityRoot s.cfg < s.cfg.M := Nat.mod_lt _ (by omega)
  rw [hostRead, readReadOnly, constRootOfUnity_eq hM, published_some (hlt.trans_le hMW)]

/-- The root's inverse, where there is one. -/
theorem read_rootOfUnityInv {s : State} (hM : 2 ≤ s.cfg.M) (hMW : s.cfg.M ≤ 2 ^ s.cfg.W)
    (hcop : (unityRoot s.cfg).Coprime s.cfg.M) :
    ∃ v, hostRead s (.ro .CONST_ROOT_OF_UNITY_INV) = .number v ∧ v < s.cfg.M ∧
      unityRoot s.cfg * v % s.cfg.M = 1 := by
  obtain ⟨-, v, hv, hvM, hone⟩ | ⟨hncop, -⟩ :=
    extEuclidInv_spec (a := unityRoot s.cfg) hM (lt_two_pow_bitLength s.cfg.M)
  · have hdef : constRootOfUnityInv s.cfg = some v := by
      rw [constRootOfUnityInv, constRootOfUnity_eq hM, Option.bind_some, hv]
    exact ⟨v, by rw [hostRead, readReadOnly, hdef, published_some (hvM.trans_le hMW)], hvM, hone⟩
  · exact absurd hcop hncop

theorem read_delta {s : State} (hM : 2 ≤ s.cfg.M) (hMW : s.cfg.M ≤ 2 ^ s.cfg.W) :
    hostRead s (.ro .CONST_DELTA) = .number (s.cfg.GENERATOR ^ 2 ^ valuationS s.cfg % s.cfg.M) := by
  have hexp : 2 ^ valuationS s.cfg < 2 ^ bitLength s.cfg.M :=
    (two_pow_valuationS_lt hM).trans (lt_two_pow_bitLength s.cfg.M)
  have hdef : constDelta s.cfg = some (s.cfg.GENERATOR ^ 2 ^ valuationS s.cfg % s.cfg.M) := by
    rw [constDelta, if_neg (by omega), powMod_eq hexp]
  have hlt : s.cfg.GENERATOR ^ 2 ^ valuationS s.cfg % s.cfg.M < s.cfg.M := Nat.mod_lt _ (by omega)
  rw [hostRead, readReadOnly, hdef, published_some (hlt.trans_le hMW)]

/-- Settles O15: each register holds the value of its definition wherever that is below its bound. -/
theorem publishedConstantsHaveTheirProperties : Obligations.PublishedConstantsHaveTheirProperties := by
  intro s
  refine ⟨rfl, fun hW => ?_, rfl, fun hG => ?_, fun hM hM255 => ?_, fun hodd hfit => ?_, ?_, fun hM hMW hW => ?_⟩
  · rw [hostRead, readReadOnly, published_some (Nat.one_lt_two_pow (by omega))]
  · rw [hostRead, readReadOnly, published_some hG]
  · obtain ⟨hbits, hcap⟩ := numBits_and_capacity hM hM255
    exact ⟨_, hbits, two_pow_bitLength_le (by omega), lt_two_pow_bitLength _, hcap⟩
  · exact ⟨twoInv_of_odd hodd hfit, fun hM => ⟨by omega, two_mul_half_succ_mod hodd hM⟩⟩
  · exact ⟨_, rfl, published_lt (Nat.two_pow_pos _)⟩
  · obtain ⟨hdvd, hndvd⟩ := valuationS_spec hM
    exact ⟨valuationS s.cfg, unityRoot s.cfg, read_S hM hMW hW, hdvd, hndvd, valuationS_eq_one,
      read_rootOfUnity hM hMW, rfl, read_rootOfUnityInv hM hMW, read_delta hM hMW⟩

/-! ## A prime modulus that is 3 modulo 4 -/

/-- A generator is no square, so its power `(M - 1) / 2` is the other root of 1 (Euler's criterion). Were it 1, then so
would be that power of every element, but the exponent is odd, and an odd power of -1 is -1. -/
theorem generator_pow_half {M g : ℕ} (hM : M.Prime) (hM4 : M % 4 = 3)
    (hgen : ∀ x, 0 < x → x < M → ∃ k, g ^ k % M = x) : g ^ ((M - 1) / 2) % M = M - 1 := by
  have : Fact M.Prime := ⟨hM⟩
  have hcast (k : ℕ) : ((g ^ k % M : ℕ) : ZMod M) = (g : ZMod M) ^ k := by rw [ZMod.natCast_mod, Nat.cast_pow]
  have hminus : ((M - 1 : ℕ) : ZMod M) = -1 := by simp [Nat.cast_sub hM.one_le]
  have hone : (1 : ZMod M) ≠ -1 := by
    have : Fact (2 < M) := ⟨by omega⟩
    exact (ZMod.neg_one_ne_one (n := M)).symm
  obtain ⟨j, hj⟩ : ∃ j, (g : ZMod M) ^ j = -1 := by
    obtain ⟨j, hj⟩ := hgen (M - 1) (by omega) (by omega)
    exact ⟨j, by rw [← hcast, hj, hminus]⟩
  have hodd : Odd ((M - 1) / 2) := Nat.odd_iff.2 (by omega)
  have hg : (g : ZMod M) ≠ 0 := by
    intro hg
    rw [hg] at hj
    obtain rfl | hj0 := Nat.eq_zero_or_pos j
    · exact hone (by simpa using hj)
    · simp [hj0.ne'] at hj
  have hroot : (g : ZMod M) ^ ((M - 1) / 2) = -1 := by
    have hhalf : M / 2 = (M - 1) / 2 := by omega
    have euler := ZMod.pow_div_two_eq_neg_one_or_one M hg
    rw [hhalf] at euler
    refine euler.resolve_left fun h1 => hone ?_
    calc (1 : ZMod M)
      _ = ((g : ZMod M) ^ ((M - 1) / 2)) ^ j := by rw [h1, one_pow]
      _ = (-1) ^ ((M - 1) / 2) := by rw [← pow_mul, Nat.mul_comm, pow_mul, hj]
      _ = -1 := hodd.neg_one_pow
  rw [← hminus, ← Nat.cast_pow, ZMod.natCast_eq_natCast_iff'] at hroot
  rw [hroot, Nat.mod_eq_of_lt (by omega)]

/-- `M - 1` is its own inverse. -/
theorem pred_mul_pred_mod {M : ℕ} (hM : 2 ≤ M) : (M - 1) * (M - 1) % M = 1 := by
  obtain ⟨m, rfl⟩ := Nat.exists_eq_add_of_le' hM
  have hsquare : (m + 2 - 1) * (m + 2 - 1) = 1 + (m + 2) * m := by
    rw [show m + 2 - 1 = m + 1 from rfl]
    ring
  rw [hsquare, Nat.add_mul_mod_self_left, Nat.mod_eq_of_lt hM]

/-- Settles O16: the formula's power is -1 by Euler's criterion, and -1 is its own inverse. -/
theorem rootOfUnityIsMinusOne : Obligations.RootOfUnityIsMinusOne := by
  intro s hc hprime hM4 hgen
  obtain ⟨hM, hMW, -⟩ := configOk_bounds hc
  have hroot : unityRoot s.cfg = s.cfg.M - 1 := by
    rw [unityRoot, valuationS_eq_one hM4, pow_one, generator_pow_half hprime hM4 hgen]
  have hself : (s.cfg.M - 1) * (s.cfg.M - 1) % s.cfg.M = 1 := pred_mul_pred_mod hM
  have hcop : (unityRoot s.cfg).Coprime s.cfg.M := hroot ▸ InvSqrt.coprime_of_mul_mod_eq_one hself
  obtain ⟨v, hread, hvM, hone⟩ := read_rootOfUnityInv hM hMW.le hcop
  rw [hroot] at hone
  have hv : v = s.cfg.M - 1 := InvSqrt.inverse_unique hvM (by omega) hone hself
  exact ⟨hroot ▸ read_rootOfUnity hM hMW.le, hv ▸ hread⟩

end Sys2Proof.Proofs.PublishedConstants
end

section
/-! PROOF. What a command writes and what it reads (10_state.md R36). -/

namespace Sys2Proof.Proofs.ReadAndWriteSets

open Sys2Proof Sys2Proof.Machine Sys2Proof.Proofs.Configuration Sys2Proof.Proofs.Codec Sys2Proof.Proofs.FaultState
  Sys2Proof.Proofs.Outcomes

/-! ## Write sets -/

theorem completes_operands {i : Instr} {s t : State} (h : Completes i s t) :
    t.A = s.A ∧ t.B = s.B ∧ t.host = s.host ∧ t.readBack = s.readBack := by
  cases h <;> exact ⟨rfl, rfl, rfl, rfl⟩

theorem completes_BUF_BLEN {i : Instr} {s t : State} (h : Completes i s t) (he : encodeCommand i = false) :
    t.BUF = s.BUF ∧ t.BLEN = s.BLEN := by
  cases h with
  | encoded n a henc => simp [he] at henc
  | _ => exact ⟨rfl, rfl⟩

theorem encodeCommand_of_softCommand {i : Instr} (h : softCommand i = true) : encodeCommand i = false := by
  cases i with
  | inv w | sqrt w | sqrtr w | dec w | decEnv w => rfl
  | _ => cases h

theorem completes_R_draws {i : Instr} {s t : State} (h : Completes i s t) (he : encodeCommand i = true) :
    t.R = s.R ∧ t.draws = s.draws := by
  cases h with
  | encoded n a => exact ⟨rfl, rfl⟩
  | result r henc => simp [he] at henc
  | soft hsoft => simp [encodeCommand_of_softCommand hsoft] at he
  | drawnResult r hroot | drawnSoft hroot => simp [encodeCommand_of_rootCommand hroot] at he

/-- Only a soft outcome uses up free values. -/
theorem completes_draws {i : Instr} {s t : State} (h : Completes i s t) (hs : softCommand i = false) :
    t.draws = s.draws := by
  cases h with
  | result r | encoded n a => rfl
  | soft hsoft => simp [hs] at hsoft
  | drawnResult r hroot | drawnSoft hroot => simp [softCommand_of_rootCommand hroot] at hs

/-- A ready encode that completes leaves the cells above its length. -/
theorem completes_cells {i : Instr} {s t : State} (hr : s.Ready i) (hdone : Completes i s t)
    (h : exec i s = .next t) :
    (∀ w k, i = .enc w → s.cfg.NB ≤ k → Memory.read t.BUF k = Memory.read s.BUF k) ∧
    ∀ w k, i = .encEnv w → s.cfg.ENV_BYTES ≤ k → Memory.read t.BUF k = Memory.read s.BUF k := by
  have ht : t.faulted = false := (completes_faulted hdone).trans hr.1
  constructor
  · rintro w k rfl hk
    obtain ⟨-, a, -, -, rfl⟩ := exec_enc_completed h ht
    exact read_encoded_of_le s a.toNat hk
  · rintro w k rfl hk
    obtain ⟨-, -, a, -, -, rfl⟩ := exec_encEnv_completed h ht
    exact read_encoded_of_le s a.toNat hk

/-- Settles O26: in the fault state nothing is written, a fault entry writes `STATUS` and `FCMD`, and a completed
command has one of the forms of `Completes`. -/
theorem commandsWriteOnlyTheirWriteSets : Obligations.CommandsWriteOnlyTheirWriteSets := by
  intro i s t h
  obtain ⟨-, rfl⟩ | ⟨hf, c, rfl⟩ | ⟨hr, hdone⟩ := exec_cases h
  · exact ⟨rfl, rfl, rfl, rfl, rfl, fun _ => ⟨rfl, rfl⟩, fun _ => ⟨rfl, rfl⟩, fun _ => rfl, fun _ _ _ _ => rfl,
      fun _ _ _ _ => rfl, .inl ⟨rfl, rfl⟩⟩
  · exact ⟨rfl, rfl, rfl, rfl, rfl, fun _ => ⟨rfl, rfl⟩, fun _ => ⟨rfl, rfl⟩, fun _ => rfl, fun _ _ _ _ => rfl,
      fun _ _ _ _ => rfl, .inr ⟨hf, c, rfl⟩⟩
  · obtain ⟨hA, hB, hhost, hback⟩ := completes_operands hdone
    obtain ⟨henc, henv⟩ := completes_cells hr hdone h
    exact ⟨completes_cfg hdone, hA, hB, hhost, hback, completes_BUF_BLEN hdone, completes_R_draws hdone,
      completes_draws hdone, henc, henv, .inl ⟨completes_STATUS hdone, completes_FCMD hdone⟩⟩

/-! ## Read sets -/

/-- `t` from `s` and `t'` from `s'` were written alike: what the one has new the other has too, and a register that
was not written in the one was not written in the other. -/
abbrev SameWrites (s s' t t' : State) : Prop :=
  t'.STATUS = t.STATUS ∧ t'.FCMD = t.FCMD ∧ t'.draws = t.draws ∧
    ((t'.R = t.R ∧ t'.V = t.V) ∨ (t.R = s.R ∧ t'.R = s'.R ∧ (t'.V = t.V ∨ (t.V = s.V ∧ t'.V = s'.V)))) ∧
    ((t'.BLEN = t.BLEN ∧ ∀ k, Memory.read t'.BUF k = Memory.read t.BUF k ∨
        (Memory.read t.BUF k = Memory.read s.BUF k ∧ Memory.read t'.BUF k = Memory.read s'.BUF k)) ∨
      (t.BLEN = s.BLEN ∧ t.BUF = s.BUF ∧ t'.BLEN = s'.BLEN ∧ t'.BUF = s'.BUF))

/-- Two states agree on what every command reads: the configuration, the fault state and the next free value. -/
abbrev SameControl (s s' : State) : Prop :=
  s'.cfg = s.cfg ∧ s'.STATUS = s.STATUS ∧ s'.FCMD = s.FCMD ∧ s'.draws = s.draws

section
variable {s s' : State} (hc : SameControl s s')
include hc

theorem sameWrites_refl : SameWrites s s' s s' := by
  obtain ⟨-, hstatus, hfcmd, hdraws⟩ := hc
  exact ⟨hstatus, hfcmd, hdraws, .inr ⟨rfl, rfl, .inr ⟨rfl, rfl⟩⟩, .inr ⟨rfl, rfl, rfl, rfl⟩⟩

theorem sameWrites_raise (c : Cause) (w : CmdWord) : SameWrites s s' (s.raise c w) (s'.raise c w) := by
  obtain ⟨-, -, -, hdraws⟩ := hc
  exact ⟨rfl, rfl, hdraws, .inr ⟨rfl, rfl, .inr ⟨rfl, rfl⟩⟩, .inr ⟨rfl, rfl, rfl, rfl⟩⟩

theorem sameWrites_result (r : ℕ) : SameWrites s s' (s.result r) (s'.result r) := by
  obtain ⟨hcfg, hstatus, hfcmd, hdraws⟩ := hc
  refine ⟨hstatus, hfcmd, hdraws, .inl ⟨?_, rfl⟩, .inr ⟨rfl, rfl, rfl, rfl⟩⟩
  rw [State.result_R, State.result_R, hcfg]

theorem sameWrites_soft : SameWrites s s' s.soft s'.soft := by
  obtain ⟨hcfg, hstatus, hfcmd, hdraws⟩ := hc
  refine ⟨hstatus, hfcmd, congrArg (· + 1) hdraws, .inl ⟨?_, rfl⟩, .inr ⟨rfl, rfl, rfl, rfl⟩⟩
  rw [State.soft_R, State.soft_R, hcfg, hdraws]

theorem sameWrites_optional (o : Option ℕ) : SameWrites s s' (s.optional o) (s'.optional o) := by
  cases o with
  | some r => exact sameWrites_result hc r
  | none => exact sameWrites_soft hc

/-- Two encodings of one value have the same bytes, and leave the cells above them. -/
theorem sameWrites_encoded (n a : ℕ) : SameWrites s s' (s.encoded n a) (s'.encoded n a) := by
  obtain ⟨-, hstatus, hfcmd, hdraws⟩ := hc
  refine ⟨hstatus, hfcmd, hdraws, .inr ⟨rfl, rfl, .inl rfl⟩, .inl ⟨rfl, fun k => ?_⟩⟩
  by_cases hk : k < n
  · exact .inl (by rw [read_encoded_of_lt s a hk, read_encoded_of_lt s' a hk])
  · exact .inr ⟨read_encoded_of_le s a (by omega), read_encoded_of_le s' a (by omega)⟩

/-- SQRTR's inner INV may use up a free value, the same one in both states. -/
theorem ratioInverse_alike (den : ℕ) :
    ∃ d, (ratioInverse s den = (d, s) ∧ ratioInverse s' den = (d, s')) ∨
      (ratioInverse s den = (d, { s with draws := s.draws + 1 }) ∧
        ratioInverse s' den = (d, { s' with draws := s'.draws + 1 })) := by
  obtain ⟨hcfg, -, -, hdraws⟩ := hc
  by_cases hden : den = 0
  · exact ⟨0, .inl ⟨if_pos hden, if_pos hden⟩⟩
  unfold ratioInverse
  rw [if_neg hden, if_neg hden, hcfg]
  cases extEuclidInv s.cfg.W s.cfg.M den with
  | some r => exact ⟨r, .inl ⟨rfl, rfl⟩⟩
  | none => exact ⟨drawW s.cfg.W s.draws, .inr ⟨rfl, by rw [hdraws]⟩⟩

theorem sameWrites_ratio (num den : ℕ) :
    SameWrites s s'
      ((ratioInverse s den).2.optional (sqrtRatio s.cfg.W s.cfg.M num den (ratioInverse s den).1))
      ((ratioInverse s' den).2.optional (sqrtRatio s.cfg.W s.cfg.M num den (ratioInverse s' den).1)) := by
  obtain ⟨d, ⟨h, h'⟩ | ⟨h, h'⟩⟩ := ratioInverse_alike hc den
  · rw [h, h']
    exact sameWrites_optional hc _
  · rw [h, h']
    obtain ⟨hcfg, hstatus, hfcmd, hdraws⟩ := hc
    have drawn : SameControl { s with draws := s.draws + 1 } { s' with draws := s'.draws + 1 } :=
      ⟨hcfg, hstatus, hfcmd, congrArg (· + 1) hdraws⟩
    exact (sameWrites_optional drawn _ :)

end

/-- Two bodies that end alike: in the same failing check, or in states written alike. -/
abbrev SameEnds (s s' : State) (body body' : Except Stop State) : Prop :=
  (∃ e, body = .error e ∧ body' = .error e) ∨ ∃ t t', body = .ok t ∧ body' = .ok t' ∧ SameWrites s s' t t'

theorem sameEnds_map {α : Type} {s s' : State} {x x' : Except Stop α} {f f' : α → State} (hx : x' = x)
    (hf : ∀ p, SameWrites s s' (f p) (f' p)) : SameEnds s s' (x.map f) (x'.map f') := by
  subst hx
  cases x' with
  | error e => exact .inl ⟨e, rfl, rfl⟩
  | ok p => exact .inr ⟨_, _, rfl, rfl, hf p⟩

theorem sameEnds_bind {s s' : State} {x x' : Except Stop Unit} {f f' : Unit → Except Stop State} (hx : x' = x)
    (hf : SameEnds s s' (f ()) (f' ())) : SameEnds s s' (x.bind f) (x'.bind f') := by
  subst hx
  cases x' with
  | error e => exact .inl ⟨e, rfl, rfl⟩
  | ok _ => exact hf

theorem command_sameWrites {i : Instr} {s s' t : State} {body body' : Except Stop State} (hc : SameControl s s')
    (hbody : SameEnds s s' body body') (h : command i s body = .next t) :
    ∃ t', command i s' body' = .next t' ∧ SameWrites s s' t t' := by
  have ⟨hcfg, hstatus, _⟩ := hc
  have hfaulted : s'.faulted = s.faulted := by rw [State.faulted, State.faulted, hstatus]
  have hchecks : issueChecks i s' = issueChecks i s := by rw [issueChecks, issueChecks, hcfg]
  have hends : SameEnds s s' ((issueChecks i s).bind fun _ => body) ((issueChecks i s').bind fun _ => body') :=
    sameEnds_bind hchecks hbody
  rw [command, hfaulted]
  rw [command] at h
  split_ifs at h ⊢
  · cases h
    exact ⟨s', rfl, sameWrites_refl hc⟩
  · obtain ⟨e, he, he'⟩ | ⟨u, u', hu, hu', hw⟩ := hends
    · rw [he] at h
      rw [he']
      cases e with
      | cause c => cases h; exact ⟨_, rfl, sameWrites_raise hc c _⟩
      | stuck f => cases h
    · rw [hu] at h
      rw [hu']
      cases h
      exact ⟨_, rfl, hw⟩

/-! ### The operand forms -/

theorem fieldOperand_congr {s s' : State} (hcfg : s'.cfg = s.cfg) (hA : s'.A = s.A) :
    fieldOperand s' = fieldOperand s := by
  rw [fieldOperand, fieldOperand, hcfg, hA]

theorem fieldOperands_congr {s s' : State} (hcfg : s'.cfg = s.cfg) (hA : s'.A = s.A) (hB : s'.B = s.B) :
    fieldOperands s' = fieldOperands s := by
  rw [fieldOperands, fieldOperands, hcfg, hA, hB]

theorem remrOperands_congr {s s' : State} (hA : s'.A = s.A) (hB : s'.B = s.B) :
    remrOperands s' = remrOperands s := by
  rw [remrOperands, remrOperands, hA, hB]

/-- A sequence read depends on its own cells only. -/
theorem readFrom_congr {m m' : Memory} {n : ℕ} : ∀ {i : ℕ},
    (∀ k < n, Memory.read m' (i + k) = Memory.read m (i + k)) → Memory.readFrom m' i n = Memory.readFrom m i n := by
  induction n with
  | zero => exact fun _ => rfl
  | succ n ih =>
    intro i h
    have hrest : Memory.readFrom m' (i + 1) n = Memory.readFrom m (i + 1) n :=
      ih fun k hk => by rw [Nat.add_assoc, Nat.add_comm 1 k]; exact h (k + 1) (by omega)
    have hfirst : Memory.read m' i = Memory.read m i := h 0 (Nat.succ_pos n)
    rw [Memory.readFrom, Memory.readFrom, hfirst, hrest]

theorem byteOperand_congr {s s' : State} {n : ℕ} (hBLEN : s'.BLEN = s.BLEN)
    (hBUF : ∀ k < n, Memory.read s'.BUF k = Memory.read s.BUF k) : byteOperand s' n = byteOperand s n := by
  have hcells : Memory.readFrom s'.BUF 0 n = Memory.readFrom s.BUF 0 n :=
    readFrom_congr fun k hk => by rw [Nat.zero_add]; exact hBUF k hk
  rw [byteOperand, byteOperand, hBLEN, hcells]

/-- Two states that agree on what a command reads go on alike, each of the 17 commands by its operand form and its
effect. -/
theorem exec_sameWrites {i : Instr} {s s' t : State} (hc : SameControl s s')
    (hA : fieldCommand i = true ∨ i = .remr → s'.A = s.A) (hB : binaryField i = true ∨ i = .remr → s'.B = s.B)
    (hBLEN : fieldCommand i = false ∧ i ≠ .remr → s'.BLEN = s.BLEN)
    (hBUF : ∀ k < byteLength s.cfg i, Memory.read s'.BUF k = Memory.read s.BUF k) (h : exec i s = .next t) :
    ∃ t', exec i s' = .next t' ∧ SameWrites s s' t t' := by
  have ⟨hcfg, _⟩ := hc
  have one (hi : fieldCommand i = true) : fieldOperand s' = fieldOperand s := fieldOperand_congr hcfg (hA (.inl hi))
  have two (hi : fieldCommand i = true) (hb : binaryField i = true) : fieldOperands s' = fieldOperands s :=
    fieldOperands_congr hcfg (hA (.inl hi)) (hB (.inl hb))
  have bytes (hi : fieldCommand i = false ∧ i ≠ .remr) :
      byteOperand s' (byteLength s.cfg i) = byteOperand s (byteLength s.cfg i) := byteOperand_congr (hBLEN hi) hBUF
  have result (r : ℕ) := sameWrites_result hc r
  have optional (o : Option ℕ) := sameWrites_optional hc o
  cases i with
  | add w | sub w | mul w =>
    refine command_sameWrites hc (sameEnds_map (two rfl rfl) fun p => ?_) h
    rw [hcfg]
    exact result _
  | neg w | dbl w | sqr w =>
    refine command_sameWrites hc (sameEnds_map (one rfl) fun a => ?_) h
    rw [hcfg]
    exact result _
  | isodd w => exact command_sameWrites hc (sameEnds_map (one rfl) fun _ => result _) h
  | inv w =>
    refine command_sameWrites hc (sameEnds_map (one rfl) fun a => ?_) h
    rw [hcfg]
    exact optional _
  | sqrt w =>
    refine command_sameWrites hc (sameEnds_bind (by rw [hcfg]) (sameEnds_map (one rfl) fun a => ?_)) h
    rw [hcfg]
    exact optional _
  | sqrtr w =>
    refine command_sameWrites hc (sameEnds_bind (by rw [hcfg]) (sameEnds_map (two rfl rfl) fun p => ?_)) h
    rw [hcfg]
    exact sameWrites_ratio hc _ _
  | enc w =>
    refine command_sameWrites hc (sameEnds_map (one rfl) fun a => ?_) h
    rw [hcfg]
    exact sameWrites_encoded hc _ _
  | encEnv w =>
    refine command_sameWrites hc (sameEnds_bind (by rw [hcfg]) (sameEnds_map (one rfl) fun a => ?_)) h
    rw [hcfg]
    exact sameWrites_encoded hc _ _
  | redw w | rednz w =>
    refine command_sameWrites hc (sameEnds_bind (by rw [hcfg]) (sameEnds_map ?_ fun bs => ?_)) h
    · rw [hcfg]
      exact bytes ⟨rfl, nofun⟩
    · rw [hcfg]
      exact result _
  | dec w =>
    refine command_sameWrites hc (sameEnds_map ?_ fun bs => ?_) h
    · rw [hcfg]
      exact bytes ⟨rfl, nofun⟩
    · rw [hcfg]
      exact optional _
  | decEnv w =>
    refine command_sameWrites hc (sameEnds_bind (by rw [hcfg]) (sameEnds_map ?_ fun bs => ?_)) h
    · rw [hcfg]
      exact bytes ⟨rfl, nofun⟩
    · rw [hcfg]
      exact optional _
  | remr =>
    exact command_sameWrites hc
      (sameEnds_map (remrOperands_congr (hA (.inr rfl)) (hB (.inr rfl))) fun _ => result _) h

/-- Settles O27: the operand forms look at the registers of the read set only, and equal operands are written alike. -/
theorem commandsReadOnlyTheirOperands : Obligations.CommandsReadOnlyTheirOperands := by
  intro i s s' t hcfg hSTATUS hFCMD hdraws hA hB hBLEN hBUF h
  exact exec_sameWrites ⟨hcfg, hSTATUS, hFCMD, hdraws⟩ hA hB hBLEN hBUF h

end Sys2Proof.Proofs.ReadAndWriteSets
end

section
/-! PROOF. Unwritten operands, and where the model stops (10_state.md R38, 00_scope.md R6). -/

namespace Sys2Proof.Proofs.FailingChecks

open Sys2Proof Sys2Proof.Machine Sys2Proof.Proofs.Configuration Sys2Proof.Proofs.LegalWords
  Sys2Proof.Proofs.FieldOperands Sys2Proof.Proofs.FaultState Sys2Proof.Proofs.Codec

/-! ## Unwritten operands -/

theorem fieldFailure_of_unwritten {i : Instr} {s : State}
    (h : s.A = none ∨ (binaryField i = true ∧ s.B = none)) : fieldFailure i s = some .unwrittenOperand := by
  unfold fieldFailure
  obtain hA | hB := h
  · rw [if_pos hA]
  · rw [if_pos hB, ite_self]

theorem remrFailure_of_unwritten {s : State} (h : s.A = none ∨ s.B = none) :
    remrFailure s = some .unwrittenOperand := by
  unfold remrFailure
  obtain hA | hB := h
  · rw [if_pos hA]
  · rw [if_pos hB, ite_self]

/-- An unwritten cell is looked for once `BLEN` has the right length. -/
theorem byteFailure_of_unwritten {n : ℕ} {s : State}
    (h : s.BLEN = none ∨ (s.BLEN.map BitVec.toNat = some n ∧ ∃ k < n, Memory.read s.BUF k = none)) :
    byteFailure n s = some .unwrittenOperand := by
  unfold byteFailure
  obtain hL | ⟨hlen, hcell⟩ := h
  · rw [if_pos hL]
  · rw [if_neg (not_not.2 hlen), if_pos hcell, ite_self]

theorem fieldCommand_of_binaryField {i : Instr} (h : binaryField i = true) : fieldCommand i = true := by
  cases i with
  | add w | sub w | mul w | sqrtr w => rfl
  | _ => cases h

theorem fieldCommand_of_rootCommand {i : Instr} (h : rootCommand i = true) : fieldCommand i = true := by
  cases i with
  | sqrt w | sqrtr w => rfl
  | _ => cases h

theorem operandFailure_remr (s : State) : operandFailure .remr s = remrFailure s := rfl

theorem operandFailure_of_byteCommand {i : Instr} {s : State} (hf : fieldCommand i = false) (hi : i ≠ .remr) :
    operandFailure i s = byteFailure (byteLength s.cfg i) s := by
  have hroot : ¬ (rootCommand i = true ∧ s.cfg.M % 4 ≠ 3) := fun h => by
    simp [fieldCommand_of_rootCommand h.1] at hf
  rw [operandFailure, if_neg hroot, if_neg (by simp [hf]), if_neg hi]

/-- Settles O30: in each of the three operand forms an unwritten operand is the first failing check. -/
theorem unwrittenOperandsFault : Obligations.UnwrittenOperandsFault := by
  intro i s hr ⟨henv, hred⟩ hroot h
  refine exec_raises hr (fun _ => hred) (fun _ => henv) ?_
  obtain ⟨hf | rfl, hA⟩ | ⟨hb | rfl, hB⟩ | ⟨⟨hf, hi⟩, hbytes⟩ := h
  · rw [operandFailure_of_fieldCommand hf hroot, fieldFailure_of_unwritten (.inl hA)]
  · rw [operandFailure_remr, remrFailure_of_unwritten (.inl hA)]
  · have hf := fieldCommand_of_binaryField hb
    rw [operandFailure_of_fieldCommand hf hroot, fieldFailure_of_unwritten (.inr ⟨hb, hB⟩)]
  · rw [operandFailure_remr, remrFailure_of_unwritten (.inr hB)]
  · rw [operandFailure_of_byteCommand hf hi, byteFailure_of_unwritten hbytes]

/-! ## The model's stop -/

/-- A body that does not stop the model: it completes or raises a fault of the spec. -/
def GoesOn {α : Type} (body : Except Stop α) : Prop := ∀ f, body ≠ .error (.stuck f)

theorem goesOn_map {α β : Type} {x : Except Stop α} {f : α → β} (hx : GoesOn x) : GoesOn (x.map f) := by
  cases x with
  | ok a => exact fun _ => nofun
  | error e => exact fun f h => hx f (by cases h; rfl)

theorem goesOn_bind {α β : Type} {x : Except Stop α} {f : α → Except Stop β} (hx : GoesOn x)
    (hf : ∀ a, GoesOn (f a)) : GoesOn (x.bind f) := by
  cases x with
  | ok a => exact hf a
  | error e => exact fun f h => hx f (by cases h; rfl)

theorem goesOn_ok {α : Type} (a : α) : GoesOn (.ok a) := fun _ => nofun

theorem goesOn_cause {α : Type} (c : Cause) : GoesOn (.error (.cause c) : Except Stop α) := fun _ => nofun

theorem goesOn_ite {α : Type} {p : Prop} [Decidable p] {x y : Except Stop α} (hx : GoesOn x) (hy : GoesOn y) :
    GoesOn (if p then x else y) := by
  split_ifs
  exacts [hx, hy]

theorem goesOn_written {n : ℕ} (r : Option (BitVec n)) : GoesOn (written r) := by
  cases r with
  | none => exact goesOn_cause _
  | some v => exact goesOn_ok _

theorem goesOn_fieldOperand (s : State) : GoesOn (fieldOperand s) :=
  goesOn_bind (goesOn_written _) fun _ => goesOn_ite (goesOn_cause _) (goesOn_ok _)

theorem goesOn_fieldOperands (s : State) : GoesOn (fieldOperands s) :=
  goesOn_bind (goesOn_written _) fun _ => goesOn_bind (goesOn_written _) fun _ =>
    goesOn_ite (goesOn_cause _) (goesOn_ite (goesOn_cause _) (goesOn_ok _))

theorem goesOn_remrOperands (s : State) : GoesOn (remrOperands s) :=
  goesOn_bind (goesOn_written _) fun _ => goesOn_bind (goesOn_written _) fun _ =>
    goesOn_ite (goesOn_cause _) (goesOn_ite (goesOn_cause _) (goesOn_ite (goesOn_cause _) (goesOn_ok _)))

theorem goesOn_byteOperand (s : State) (n : ℕ) : GoesOn (byteOperand s n) := by
  refine goesOn_bind (goesOn_written _) fun _ => goesOn_ite (goesOn_cause _) ?_
  cases Memory.readFrom s.BUF 0 n with
  | none => exact goesOn_cause _
  | some bs => exact goesOn_ok _

theorem goesOn_checkModulus (c : Config) : GoesOn (checkModulus c) := goesOn_ite (goesOn_cause _) (goesOn_ok _)

theorem goesOn_checkLength {c : Config} {n : ℕ} (h : lengthOk c n = true) : GoesOn (checkLength c n) := by
  rw [checkLength_ok h]
  exact goesOn_ok _

theorem checkLength_stuck {c : Config} {n : ℕ} (h : lengthOk c n = false) :
    checkLength c n = .error (.stuck .lengthParameter) := by
  simp [checkLength, h]

theorem command_goesOn {i : Instr} {s : State} {body : Except Stop State} (hr : s.Ready i) (hbody : GoesOn body) :
    ∃ t, command i s body = .next t := by
  rw [command_ready hr]
  cases body with
  | ok t => exact ⟨t, rfl⟩
  | error e =>
    cases e with
    | cause c => exact ⟨_, rfl⟩
    | stuck f => exact absurd rfl (hbody f)

/-- A command that is not ready does nothing in the fault state and faults outside it. -/
theorem exec_of_not_ready {i : Instr} {s : State} (h : ¬ s.Ready i) : ∃ t, exec i s = .next t := by
  cases hf : s.faulted with
  | true => exact ⟨_, exec_faulted hf⟩
  | false =>
    cases hc : configOk s.cfg with
    | false => exact ⟨_, exec_configInvalid hf hc⟩
    | true => exact ⟨_, exec_illegal hf hc fun hw => h ⟨hf, hc, hw⟩⟩

/-- A ready command goes on when the byte-length parameter it uses, if it uses one, is legal (log entry 9). -/
theorem exec_goesOn {i : Instr} {s : State} (hr : s.Ready i)
    (hred : (∃ w, i = .redw w ∨ i = .rednz w) → lengthOk s.cfg s.cfg.RED_BYTES = true)
    (henv : (∃ w, i = .encEnv w ∨ i = .decEnv w) → lengthOk s.cfg s.cfg.ENV_BYTES = true) :
    ∃ t, exec i s = .next t := by
  have field : GoesOn (fieldOperand s) := goesOn_fieldOperand s
  have fields : GoesOn (fieldOperands s) := goesOn_fieldOperands s
  have bytes (n : ℕ) : GoesOn (byteOperand s n) := goesOn_byteOperand s n
  have modulus : GoesOn (checkModulus s.cfg) := goesOn_checkModulus s.cfg
  cases i with
  | add w | sub w | mul w => exact command_goesOn hr (goesOn_map fields)
  | neg w | dbl w | sqr w | inv w | enc w | isodd w => exact command_goesOn hr (goesOn_map field)
  | sqrt w => exact command_goesOn hr (goesOn_bind modulus fun _ => goesOn_map field)
  | sqrtr w => exact command_goesOn hr (goesOn_bind modulus fun _ => goesOn_map fields)
  | dec w => exact command_goesOn hr (goesOn_map (bytes _))
  | remr => exact command_goesOn hr (goesOn_map (goesOn_remrOperands s))
  | redw w | rednz w =>
    have length := goesOn_checkLength (hred ⟨w, by simp⟩)
    exact command_goesOn hr (goesOn_bind length fun _ => goesOn_map (bytes _))
  | encEnv w =>
    have length := goesOn_checkLength (henv ⟨w, by simp⟩)
    exact command_goesOn hr (goesOn_bind length fun _ => goesOn_map field)
  | decEnv w =>
    have length := goesOn_checkLength (henv ⟨w, by simp⟩)
    exact command_goesOn hr (goesOn_bind length fun _ => goesOn_map (bytes _))

/-- Settles O32: the length check is the first of the four bodies that have it, and no other part of a body stops the
model. -/
theorem illegalLengthParametersStop : Obligations.IllegalLengthParametersStop := by
  refine fun i s => ⟨?_, ?_, ?_⟩
  · rintro hr ⟨w, rfl | rfl⟩ hlen
    all_goals exact (command_ready hr).trans (by rw [checkLength_stuck hlen]; rfl)
  · rintro hr ⟨w, rfl | rfl⟩ hlen
    all_goals exact (command_ready hr).trans (by rw [checkLength_stuck hlen]; rfl)
  · intro h
    by_cases hr : s.Ready i
    · obtain ⟨hred, henv⟩ := h.resolve_left (not_not.2 hr)
      exact exec_goesOn hr hred henv
    · exact exec_of_not_ready hr

end Sys2Proof.Proofs.FailingChecks
end

section
/-! PROOF. A present result is reduced (40_add_sub_neg.md R106, 41_mul_reduce.md R135). -/

namespace Sys2Proof.Proofs.ReducedResults

open Sys2Proof Sys2Proof.Machine Sys2Proof.Proofs.CommandResults Sys2Proof.Proofs.AddSubNeg
  Sys2Proof.Proofs.MulReduce Sys2Proof.Proofs.Codec

/-! ## The effects -/

/-- Holding a value in `R` never makes it larger. -/
theorem result_R_lt (s : State) {v b : ℕ} (hv : v < b) : ∃ r, (s.result v).R = some r ∧ r.toNat < b := by
  refine ⟨_, State.result_R s v, ?_⟩
  rw [BitVec.toNat_ofNat]
  exact ((Nat.mod_le _ _).trans (Nat.mod_le _ _)).trans_lt hv

theorem optional_R_lt {s : State} {o : Option ℕ} {b : ℕ} (ho : ∀ v, o = some v → v < b)
    (hV : (s.optional o).V = some true) : ∃ r, (s.optional o).R = some r ∧ r.toNat < b := by
  cases o with
  | some v => exact result_R_lt s (ho v rfl)
  | none => cases hV

theorem unaryCommand_R_lt {i : Instr} {s t : State} {f : ℕ → ℕ} (h : unaryCommand i s f = .next t)
    (ht : t.faulted = false) (hf : ∀ a < s.cfg.M, f a < s.cfg.M) : ∃ r, t.R = some r ∧ r.toNat < s.cfg.M := by
  obtain ⟨-, hbody⟩ := command_completed h ht
  obtain ⟨a, ha, rfl⟩ := map_eq_ok hbody
  obtain ⟨-, haM⟩ := fieldOperand_eq_ok.1 ha
  exact result_R_lt s (hf a haM)

theorem binaryCommand_R_lt {i : Instr} {s t : State} {f : ℕ → ℕ → ℕ} (h : binaryCommand i s f = .next t)
    (ht : t.faulted = false) (hf : ∀ a < s.cfg.M, ∀ b < s.cfg.M, f a b < s.cfg.M) :
    ∃ r, t.R = some r ∧ r.toNat < s.cfg.M := by
  obtain ⟨-, hbody⟩ := command_completed h ht
  obtain ⟨p, hp, rfl⟩ := map_eq_ok hbody
  obtain ⟨-, -, haM, hbM⟩ := fieldOperands_eq_ok.1 hp
  exact result_R_lt s (hf p.1 haM p.2 hbM)

theorem reduceCommand_R_lt {i : Instr} {s t : State} {f : ℕ → ℕ} (h : reduceCommand i s f = .next t)
    (ht : t.faulted = false) (hf : ∀ x, f x < s.cfg.M) : ∃ r, t.R = some r ∧ r.toNat < s.cfg.M := by
  obtain ⟨-, hbody⟩ := command_completed h ht
  obtain ⟨-, -, hbody⟩ := bind_eq_ok hbody
  obtain ⟨bs, -, rfl⟩ := map_eq_ok hbody
  exact result_R_lt s (hf _)

/-! ## The optional values -/

theorem extEuclidInv_lt {W M a v : ℕ} (h2 : 2 ≤ M) (hM : M < 2 ^ W) (h : extEuclidInv W M a = some v) : v < M := by
  obtain ⟨-, r, hr, hrM, -⟩ | ⟨-, hnone⟩ := extEuclidInv_spec (a := a) h2 hM
  · rw [hr] at h
    cases h
    exact hrM
  · simp [hnone] at h

theorem rootCandidate_lt {W M : ℕ} (x : ℕ) (h2 : 2 ≤ M) (hM : M < 2 ^ W) : rootCandidate W M x < M := by
  rw [rootCandidate_eq hM h2]
  exact Nat.mod_lt _ (by omega)

theorem sqrtMod_lt {W M x v : ℕ} (h2 : 2 ≤ M) (hM : M < 2 ^ W) (h : sqrtMod W M x = some v) : v < M := by
  dsimp only [sqrtMod] at h
  split_ifs at h
  cases h
  exact rootCandidate_lt x h2 hM

theorem sqrtRatio_lt {W M num den dinv v : ℕ} (h2 : 2 ≤ M) (hM : M < 2 ^ W)
    (h : sqrtRatio W M num den dinv = some v) : v < M := by
  dsimp only [sqrtRatio] at h
  split_ifs at h
  cases h
  exact rootCandidate_lt _ h2 hM

theorem decodeValue_lt {c : Config} {bs : List Byte} {v : ℕ} (h : decodeValue c bs = some v) : v < c.M := by
  dsimp only [decodeValue] at h
  split_ifs at h with hlt
  cases h
  exact hlt

theorem decodeEnvelope_lt {c : Config} {bs : List Byte} {v : ℕ} (h : decodeEnvelope c bs = some v) : v < c.M := by
  dsimp only [decodeEnvelope] at h
  split_ifs at h with hok
  cases h
  rw [Bool.and_eq_true, decide_eq_true_eq] at hok
  exact hok.2

/-! ## The commands -/

theorem exec_R_lt_M {i : Instr} {s t : State} (hr : s.Ready i) (h : exec i s = .next t) (ht : t.faulted = false)
    (hV : t.V = some true) (he : encodeCommand i = false) (hi : i ≠ .remr) :
    ∃ r, t.R = some r ∧ r.toNat < s.cfg.M := by
  have hc := ready_configOk hr
  obtain ⟨h2, hM, -⟩ := configOk_bounds hc
  have hMle := ready_M_le hr
  have below (n : ℕ) : n % s.cfg.M < s.cfg.M := Nat.mod_lt _ (by omega)
  cases i with
  | add w => exact binaryCommand_R_lt h ht fun a ha b hb => by rw [addMod_eq hMle ha hb]; exact below _
  | sub w => exact binaryCommand_R_lt h ht fun a ha b hb => by rw [subMod_eq hMle ha hb]; exact below _
  | mul w =>
    exact binaryCommand_R_lt (f := fun a b => reduceWide s.cfg (a * b)) h ht fun a ha b hb => by
      rw [reduceWide_mul hc ha hb]
      exact below _
  | neg w => exact unaryCommand_R_lt h ht fun a ha => by rw [negMod_eq hMle ha]; split <;> omega
  | dbl w => exact unaryCommand_R_lt h ht fun a ha => by rw [addMod_eq hMle ha ha]; exact below _
  | sqr w => exact unaryCommand_R_lt h ht fun a ha => by rw [reduceWide_mul hc ha ha]; exact below _
  | isodd w => exact unaryCommand_R_lt h ht fun a _ => (Nat.mod_lt a Nat.two_pos).trans_le h2
  | redw w => exact reduceCommand_R_lt (f := (· % s.cfg.M)) h ht below
  | rednz w => exact reduceCommand_R_lt (f := (· % (s.cfg.M - 1) + 1)) h ht (mod_pred_succ_lt h2)
  | inv w =>
    obtain ⟨-, hbody⟩ := command_completed h ht
    obtain ⟨a, -, rfl⟩ := map_eq_ok hbody
    exact optional_R_lt (fun _ => extEuclidInv_lt h2 hM) hV
  | sqrt w =>
    obtain ⟨-, hbody⟩ := command_completed h ht
    obtain ⟨-, -, hbody⟩ := bind_eq_ok hbody
    obtain ⟨x, -, rfl⟩ := map_eq_ok hbody
    exact optional_R_lt (fun _ => sqrtMod_lt h2 hM) hV
  | sqrtr w =>
    obtain ⟨-, hbody⟩ := command_completed h ht
    obtain ⟨-, -, hbody⟩ := bind_eq_ok hbody
    obtain ⟨p, -, rfl⟩ := map_eq_ok hbody
    exact optional_R_lt (fun _ => sqrtRatio_lt h2 hM) hV
  | dec w =>
    obtain ⟨-, hbody⟩ := command_completed h ht
    obtain ⟨bs, -, rfl⟩ := map_eq_ok hbody
    exact optional_R_lt (fun _ => decodeValue_lt) hV
  | decEnv w =>
    obtain ⟨-, hbody⟩ := command_completed h ht
    obtain ⟨-, -, hbody⟩ := bind_eq_ok hbody
    obtain ⟨bs, -, rfl⟩ := map_eq_ok hbody
    exact optional_R_lt (fun _ => decodeEnvelope_lt) hV
  | enc w | encEnv w => cases he
  | remr => exact absurd rfl hi

/-- REMR's remainder is below its divisor. -/
theorem exec_remr_R_lt {s t : State} (h : exec .remr s = .next t) (ht : t.faulted = false) :
    ∃ r, t.R = some r ∧ ∃ m, s.B = some m ∧ r.toNat < m.toNat := by
  obtain ⟨-, hbody⟩ := command_completed h ht
  obtain ⟨p, hp, rfl⟩ := map_eq_ok hbody
  obtain ⟨-, ⟨m, hB, hm⟩, hpos, h64, hx⟩ := remrOperands_eq_ok.1 hp
  have hlt : remByReciprocal (clz64 p.2) (p.2 <<< clz64 p.2) (reciprocal (p.2 <<< clz64 p.2)) p.1 < m.toNat := by
    rw [remByReciprocal_exact hpos h64 hx, hm]
    exact Nat.mod_lt _ hpos
  obtain ⟨r, hR, hr⟩ := result_R_lt s hlt
  exact ⟨r, hR, m, hB, hr⟩

/-- Settles O28: each command's value is a remainder modulo `M`, or for REMR modulo the divisor. -/
theorem presentResultsAreReduced : Obligations.PresentResultsAreReduced := by
  intro i s t hr h ht hV he
  by_cases hi : i = .remr
  · subst hi
    obtain ⟨r, hR, hlt⟩ := exec_remr_R_lt h ht
    exact ⟨r, hR, fun hne => absurd rfl hne, fun _ => hlt⟩
  · obtain ⟨r, hR, hlt⟩ := exec_R_lt_M hr h ht hV he hi
    exact ⟨r, hR, fun _ => hlt, fun heq => absurd heq hi⟩

end Sys2Proof.Proofs.ReducedResults
end

section
/-! PROOF. Square roots on a prime modulus, and SQRTR without an inverse (42_inv_sqrt.md R162, R164). -/

namespace Sys2Proof.Proofs.SquareRoots

open Sys2Proof Sys2Proof.Machine Sys2Proof.Proofs.CommandResults Sys2Proof.Proofs.InvSqrt

/-! ## SQRT on a prime modulus -/

/-- For a prime `M = 3 mod 4` the candidate squares back to `x` exactly when `x` is a square: if `x` is the square of
`y`, the candidate's square is `y^(M+1)`, which is `y^2` by Fermat's little theorem. -/
theorem candidate_squares_back_iff {M x r : ℕ} (hM : M.Prime) (hM4 : M % 4 = 3) (hx : x < M)
    (hr : r = x ^ ((M + 1) / 4) % M) : r * r % M = x ↔ ∃ y, y * y % M = x := by
  refine ⟨fun h => ⟨r, h⟩, ?_⟩
  rintro ⟨y, hy⟩
  have : Fact M.Prime := ⟨hM⟩
  have hxy : (x : ZMod M) = y * y := by rw [← hy, ZMod.natCast_mod, Nat.cast_mul]
  have hrx : (r : ZMod M) = (x : ZMod M) ^ ((M + 1) / 4) := by rw [hr, ZMod.natCast_mod, Nat.cast_pow]
  have hexp : 4 * ((M + 1) / 4) = M + 1 := by omega
  have hsquare : ((r * r : ℕ) : ZMod M) = x :=
    calc ((r * r : ℕ) : ZMod M)
      _ = (y * y : ZMod M) ^ ((M + 1) / 4) * (y * y) ^ ((M + 1) / 4) := by rw [Nat.cast_mul, hrx, hxy]
      _ = (y : ZMod M) ^ (4 * ((M + 1) / 4)) := by ring
      _ = (y : ZMod M) ^ M * y := by rw [hexp, pow_succ]
      _ = x := by rw [ZMod.pow_card, hxy]
  rw [ZMod.natCast_eq_natCast_iff'] at hsquare
  rw [hsquare, Nat.mod_eq_of_lt hx]

/-- Settles O48: the success test is passed exactly on the squares, and what passes it is in `R`. -/
theorem sqrtSucceedsExactlyOnSquares : Obligations.SqrtSucceedsExactlyOnSquares := by
  intro w s x hr hprime hM4 hA hx
  obtain ⟨r, hpow⟩ : ∃ r, r = x.toNat ^ ((s.cfg.M + 1) / 4) % s.cfg.M := ⟨_, rfl⟩
  have hc := ready_configOk hr
  have hiff := candidate_squares_back_iff hprime hM4 hx hpow
  refine ⟨_, exec_sqrt hr hM4 hA hx, ?_⟩
  by_cases hroot : r * r % s.cfg.M = x.toNat
  · have hrM : r < s.cfg.M := hpow ▸ Nat.mod_lt _ hprime.pos
    rw [optional_sqrtMod_of_root hc hpow hroot]
    exact ⟨iff_of_true rfl (hiff.1 hroot), fun _ => ⟨_, rfl, by rw [toNat_ofNat_element hc le_rfl hrM, hroot]⟩⟩
  · rw [optional_sqrtMod_of_not_root hc hpow hroot]
    exact ⟨iff_of_false nofun (mt hiff.2 hroot), nofun⟩

/-! ## SQRTR without an inverse -/

/-- For a `den` that is neither 0 nor invertible SQRTR's `dinv` is the next free value (log entry 10). -/
theorem ratioInverse_of_not_coprime {s : State} {den : ℕ} (hc : configOk s.cfg = true) (hden : den ≠ 0)
    (hncop : ¬ den.Coprime s.cfg.M) :
    ratioInverse s den = (drawW s.cfg.W s.draws, { s with draws := s.draws + 1 }) := by
  obtain ⟨h2, hM, -⟩ := configOk_bounds hc
  obtain ⟨hcop, -⟩ | ⟨-, hnone⟩ := extEuclidInv_spec (a := den) h2 hM
  · exact absurd hcop hncop
  · rw [ratioInverse, if_neg hden, hnone]

/-- Settles O50: with the free value for `dinv`, SQRTR is SQRT of `num * dinv`. -/
theorem sqrtrWithoutAnInverseUsesTheFreeValue : Obligations.SqrtrWithoutAnInverseUsesTheFreeValue := by
  intro w s num den hr hM4 hA hB hn hd hden hncop dinv x r hdinv hx hpow
  have hc := ready_configOk hr
  have hfree : ratioInverse s den.toNat = (dinv, { s with draws := s.draws + 1 }) := by
    rw [ratioInverse_of_not_coprime hc hden hncop, hdinv, drawW]
  rw [exec_sqrtr hr hM4 hA hB hn hd hfree, sqrtRatio_eq_sqrtMod (.inr hden), ← hx]
  exact ⟨fun h => congrArg _ (optional_sqrtMod_of_root (s := { s with draws := s.draws + 1 }) hc hpow h),
    fun h => congrArg _ (optional_sqrtMod_of_not_root (s := { s with draws := s.draws + 1 }) hc hpow h)⟩

end Sys2Proof.Proofs.SquareRoots
end

section
/-! PROOF. The padding of an envelope (43_codec.md R184). -/

namespace Sys2Proof.Proofs.EnvelopePadding

open Sys2Proof Sys2Proof.Machine Sys2Proof.Proofs.Codec

/-- A sequence whose value fits its last `nb` bytes has only zeros before them. -/
theorem padding_eq_zero_of_beValue_lt {bs : List Byte} {nb k : ℕ} (h : beValue bs < 256 ^ nb)
    (hk : k < bs.length - nb) : bs[k]? = some 0 := by
  induction bs generalizing k with
  | nil => simp at hk
  | cons b bs ih =>
    rw [List.length_cons] at hk
    rw [beValue] at h
    cases k with
    | succ k => exact ih (by omega) (by omega)
    | zero =>
      have hpow : 256 ^ nb ≤ 256 ^ bs.length := Nat.pow_le_pow_right (by decide) (by omega)
      have hb : b.toNat = 0 := by
        by_contra hb
        have : 256 ^ bs.length ≤ b.toNat * 256 ^ bs.length := Nat.le_mul_of_pos_left _ (Nat.pos_of_ne_zero hb)
        omega
      exact congrArg some (BitVec.eq_of_toNat_eq hb)

/-- Settles O55: a value below `M` fits `NB` bytes, so the padding test passes whenever the range test does. -/
theorem paddingTestNeverChangesTheVerdict : Obligations.PaddingTestNeverChangesTheVerdict := by
  intro c bs hc _ hbs
  have hiff : EnvelopeOk c bs ↔ beValue bs < c.M := by
    refine ⟨And.right, fun h => ⟨fun k hk => ?_, h⟩⟩
    exact padding_eq_zero_of_beValue_lt (element_lt_pow_NB hc h) (by rwa [hbs])
  simp only [decodeEnvelope_eq hbs, hiff]

end Sys2Proof.Proofs.EnvelopePadding
end
